-- ==== Sys2Proof/Word.lean ====
section
/-! DEFINITION. The words, codes, sequences, frames and floating-point values the rules speak of. -/

namespace Sys2Proof

/-- One word of a command or response frame, WORD_W = 32 bits (00_scope.md R7, 30_encoding.md R61). -/
abbrev Word := BitVec 32

/-- One character code, CODE_W = 21 bits, every value legal (30_encoding.md R66). -/
abbrev Code := BitVec 21

/-- One element of a seed sequence: a text as its list of character codes (00_scope.md R16). -/
abbrev Text := List Code

/-- A seed sequence, DOC00's SeedSpec (10_state.md R25); it and each of its elements may be empty. -/
abbrev SeedSeq := List Text

/-- A frame: a non-empty finite list of words, word 0 first (30_encoding.md R61). Word 0 stands alone, so that
an empty frame cannot be written down (assumption 17). -/
structure Frame where
  header  : Word
  payload : List Word
  deriving DecidableEq, Repr

/-- The words of a frame, word 0 first (30_encoding.md R61). -/
abbrev Frame.words (f : Frame) : List Word := f.header :: f.payload

/-- A finite non-negative binary64 value, R10's F64: `sig * 2^(exp - 1074)`. Every such value is a multiple of
`2^-1074`; one value has many pairs, and the machine's registers hold patterns, never pairs (assumption 8). -/
structure F64 where
  sig : Nat
  exp : Nat
  deriving DecidableEq, Repr, Inhabited

end Sys2Proof
end

