-- ==== Sys2Proof/Syntax.lean ====
section
/-! DEFINITION. The commands, one constructor per row of spec/opcode_table.json. -/

namespace Sys2Proof

/-- The eight commands of the opcode map (30_encoding.md R68). -/
inductive Instr where
  /-- SEED q: store a seed sequence and reinitialise from it (41_init.md R111). -/
  | seed (q : SeedSeq)
  /-- SEEDR: seed from three entropy words (41_init.md R112). -/
  | seedr
  /-- RESTART: reinitialise from the stored seed sequence (41_init.md R113). -/
  | restart
  /-- RANDOM: one draw, as a fraction (42_draw.md R131). -/
  | random
  /-- FRACT53: two draws, as a fraction of 53 bits (43_derived.md R140). -/
  | fract53
  /-- INT32: one draw, as an integer held in binary64 (43_derived.md R142). -/
  | int32
  /-- CYCLE n: discard `max(n, 1)` draws (43_derived.md R144). -/
  | cycle (n : Int)
  /-- CYCLED: discard one draw (43_derived.md R145). -/
  | cycled
  deriving DecidableEq, Repr

end Sys2Proof
end

