-- ==== Sys2Proof/Decode.lean ====
section
/-! DEFINITION. The command frames: decoder (30_encoding.md R69), encoder (R62 to R68), and the frame an opcode-table
row's bits stand for. -/

namespace Sys2Proof

/-- Why a frame is illegal, one name per check of 30_encoding.md R69 (the names are the model's, assumption 18; every
one of them is the verdict Illegal). -/
inductive DecodeError where
  /-- RSV, `H[23:17]`, is not 0. -/
  | reservedBits
  /-- OPC is none of the assigned values. -/
  | unassignedOpcode
  /-- P = 1 with an opcode other than 0x13. -/
  | presenceBit
  /-- CNT is not 0 with an opcode other than 0x01. -/
  | countField
  /-- A format Z or format I frame has not exactly its payload words. -/
  | payloadLength
  /-- A SEED frame ends where a length word should stand. -/
  | lengthWordMissing
  /-- An element runs past the end of the frame. -/
  | elementPastFrame
  /-- A code word has a non-zero bit in `W[31:21]`. -/
  | codeReservedBits
  /-- Words are left over after the last element. -/
  | wordsLeftOver
  deriving DecidableEq, Repr

/-- `H[31:24]`, the opcode (30_encoding.md R62). -/
def opcField (h : Word) : BitVec 8 := h.extractLsb' 24 8

/-- `H[23:17]`, reserved (30_encoding.md R62). -/
def rsvField (h : Word) : BitVec 7 := h.extractLsb' 17 7

/-- `H[16]`, "argument present" (30_encoding.md R62). -/
def pField (h : Word) : BitVec 1 := h.extractLsb' 16 1

/-- `H[15:0]`, the element count (30_encoding.md R62). -/
def cntField (h : Word) : BitVec 16 := h.extractLsb' 0 16

/-- `W[31:21]` of a code word, reserved (30_encoding.md R66). -/
def codeRsvField (w : Word) : BitVec 11 := w.extractLsb' 21 11

/-- `W[20:0]` of a code word, the character code (30_encoding.md R66). -/
def codeField (w : Word) : Code := w.extractLsb' 0 21

/-- `n = sext_32(IMM)` (30_encoding.md R64). -/
def immCount (imm : Word) : Int := imm.toInt

/-- The codes of one element's code words (30_encoding.md R66, R69). -/
def takeCodes : List Word → Except DecodeError Text
  | [] => .ok []
  | w :: ws =>
    if codeRsvField w ≠ 0#11 then .error .codeReservedBits
    else match takeCodes ws with
      | .error e => .error e
      | .ok cs => .ok (codeField w :: cs)

/-- The next `k` elements of a SEED payload and the words after them; lengths are unbounded integers, so `pos + L`
does not wrap (30_encoding.md R69). -/
def takeElements : Nat → List Word → Except DecodeError (SeedSeq × List Word)
  | 0, ws => .ok ([], ws)
  | _ + 1, [] => .error .lengthWordMissing
  | k + 1, l :: ws =>
    if ws.length < l.toNat then .error .elementPastFrame
    else match takeCodes (ws.take l.toNat) with
      | .error e => .error e
      | .ok e =>
        match takeElements k (ws.drop l.toNat) with
        | .error r => .error r
        | .ok (q, rest) => .ok (e :: q, rest)

/-- The format Z command of an opcode other than 0x13 (30_encoding.md R68). -/
def zCommand (opc : BitVec 8) : Option Instr :=
  if opc = 0x02#8 then some .seedr
  else if opc = 0x03#8 then some .restart
  else if opc = 0x10#8 then some .random
  else if opc = 0x11#8 then some .fract53
  else if opc = 0x12#8 then some .int32
  else none

/-- SEED's part of the decoder (30_encoding.md R69, `opc == 0x01`). -/
def decodeSeed (f : Frame) : Except DecodeError Instr :=
  if pField f.header ≠ 0#1 then .error .presenceBit
  else match takeElements (cntField f.header).toNat f.payload with
    | .error e => .error e
    | .ok (q, rest) => if rest = [] then .ok (.seed q) else .error .wordsLeftOver

/-- The format Z part of the decoder (30_encoding.md R69, second case). -/
def decodeZ (i : Instr) (f : Frame) : Except DecodeError Instr :=
  if pField f.header ≠ 0#1 then .error .presenceBit
  else if cntField f.header ≠ 0#16 then .error .countField
  else if f.payload ≠ [] then .error .payloadLength
  else .ok i

/-- CYCLE and CYCLED share opcode 0x13 and are told apart by P (30_encoding.md R68, R69). -/
def decodeCycle (f : Frame) : Except DecodeError Instr :=
  if cntField f.header ≠ 0#16 then .error .countField
  else if pField f.header = 0#1 then
    (if f.payload = [] then .ok .cycled else .error .payloadLength)
  else match f.payload with
    | [imm] => .ok (.cycle (immCount imm))
    | _ => .error .payloadLength

/-- Decode: a total function from any frame to a command or the verdict Illegal; it reads no state (30_encoding.md
R69). -/
def decode (f : Frame) : Except DecodeError Instr :=
  if rsvField f.header ≠ 0#7 then .error .reservedBits
  else if opcField f.header = 0x01#8 then decodeSeed f
  else if opcField f.header = 0x13#8 then decodeCycle f
  else match zCommand (opcField f.header) with
    | some i => decodeZ i f
    | none => .error .unassignedOpcode

/-- A header word of its four fields (30_encoding.md R62). -/
def headerWord (opc : BitVec 8) (p : BitVec 1) (cnt : BitVec 16) : Word := opc ++ 0#7 ++ p ++ cnt

/-- One element of a format S payload: its length word, then one word per code (30_encoding.md R65, R66). -/
def elementWords (e : Text) : List Word := BitVec.ofNat 32 e.length :: e.map (BitVec.setWidth 32)

/-- A format Z frame (30_encoding.md R63). -/
def formatZ (opc : BitVec 8) : Frame := ⟨headerWord opc 0#1 0#16, []⟩

/-- The frame of a command (30_encoding.md R63 to R65, R68). -/
def encode : Instr → Frame
  | .seed q => ⟨headerWord 0x01#8 0#1 (BitVec.ofNat 16 q.length), q.flatMap elementWords⟩
  | .seedr => formatZ 0x02#8
  | .restart => formatZ 0x03#8
  | .random => formatZ 0x10#8
  | .fract53 => formatZ 0x11#8
  | .int32 => formatZ 0x12#8
  | .cycle n => ⟨headerWord 0x13#8 1#1 0#16, [BitVec.ofInt 32 n]⟩
  | .cycled => formatZ 0x13#8

/-- The first `k` words of the number `v`, bit 0 the least significant bit of the first (the numbering of
spec/opcode_table.json). -/
def wordsOf : Nat → Nat → List Word
  | 0, _ => []
  | k + 1, v => BitVec.ofNat 32 v :: wordsOf k (v / 2 ^ 32)

/-- The payload words of a SEED of `k` elements, the given words first and zero words where the table gives no bits
(assumption 14). -/
def padElements : Nat → List Word → List Word
  | 0, ws => ws
  | k + 1, [] => 0#32 :: padElements k []
  | k + 1, l :: ws =>
    l :: (ws.take l.toNat ++ List.replicate (l.toNat - ws.length) 0#32 ++ padElements k (ws.drop l.toNat))

/-- The payload of an opcode-table row's instruction: its operand words above the table's bits are zero
(assumption 14). -/
def padOperands (h : Word) (ws : List Word) : List Word :=
  if opcField h = 0x01#8 then padElements (cntField h).toNat ws
  else if opcField h = 0x13#8 ∧ pField h = 1#1 ∧ ws = [] then [0#32]
  else ws

/-- The frame of an instruction whose first `nbits` bits are `w` and whose other bits are 0 (assumption 14). -/
def tableFrame (nbits w : Nat) : Frame :=
  let v := w % 2 ^ nbits
  let h := BitVec.ofNat 32 v
  ⟨h, padOperands h (wordsOf ((nbits + 31) / 32 - 1) (v / 2 ^ 32))⟩

/-- The instruction the decoder reads from those bits; `none` where it refuses them. -/
def decodeTableWord (nbits w : Nat) : Option Instr :=
  match decode (tableFrame nbits w) with
  | .ok i => some i
  | .error _ => none

end Sys2Proof
end

