-- ==== Sys2Proof/Config.lean ====
section
/-! DEFINITION. What an implementation fixes (the open parameters of 00_scope.md R7) and the free values: constants
with no body, one for every value the spec leaves open. -/

namespace Sys2Proof

/-- The open capacity parameters (00_scope.md R7, 92_eei_decisions.md D20): arguments of the model. -/
structure Params where
  /-- SEED_MAX_ELEMS, most elements one SEED may carry. -/
  seedMaxElems : Nat
  /-- SEED_MAX_CODES, most codes over all elements of one SEED; `none` is unbounded. -/
  seedMaxCodes : Option Nat
  deriving DecidableEq, Repr

/-- The defaults: 65535 elements, unbounded codes (00_scope.md R7). -/
def Params.default : Params := ⟨65535, none⟩

/-- The legal parameters: SEED_MAX_ELEMS 3 to 65535, SEED_MAX_CODES at least 30 or unbounded (00_scope.md R7). -/
def Params.legal (p : Params) : Bool :=
  decide (3 ≤ p.seedMaxElems) && decide (p.seedMaxElems ≤ 65535) &&
    (match p.seedMaxCodes with
      | none => true
      | some m => decide (30 ≤ m))

/-- The k-th word ENTROPY answers where `State.ent` lists none: any word (20_memory.md R54, U4; assumption 5). -/
opaque Config.entropyWord (k : Nat) : Word

/-- S[i] after the k-th RESET input: any pattern (10_state.md R32, U1; assumption 2). -/
opaque Config.resetStateWord (k : Nat) (i : Fin 3) : BitVec 64

/-- C after the k-th RESET input: any pattern (10_state.md R32, U1; assumption 2). -/
opaque Config.resetCarry (k : Nat) : BitVec 21

/-- N after the k-th RESET input: any pattern (10_state.md R32, U3; assumption 2). -/
opaque Config.resetAccumulator (k : Nat) : BitVec 32

/-- SEEDSTORE after the k-th RESET input: any content (10_state.md R32, U2; assumption 2). -/
opaque Config.resetSeedStore (k : Nat) : SeedSeq

/-- The value of a 64-bit pattern that is not in F64 (sign bit set, infinity, NaN): no rule gives one and no run
reaches one (00_scope.md R10, U12; assumption 9). -/
opaque Config.valueOutsideF64 (w : BitVec 64) : F64

/-- What the 21-bit carry register holds after an integer part that does not fit it: no run reaches one
(10_state.md R23, U12; assumption 10). -/
opaque Config.carryTooWide (k : Nat) : BitVec 21

end Sys2Proof
end

