-- ==== Sys2Proof/Machine/State.lean ====
section
/-! DEFINITION. The state of one block (10_state.md R20), its ports as plain data (20_memory.md R41), and the reset
state (10_state.md R32). -/

namespace Sys2Proof.Machine

/-- The three faults of 60_exceptions.md R161. None of them stops the machine: a fault is answered in the response of the
command and the block takes the next frame (R165), so the model TAKES it as a next state (`raise`) and no step ends in
`Host.Outcome.fault` (assumption 7, safe). -/
inductive Fault where
  /-- Code 0x01. Raised by the decoder for a frame that is no legal encoding (R162). Safe: taken as the spec says. -/
  | illegalCommand
  /-- Code 0x02. Raised by RESTART, RANDOM, FRACT53, INT32, CYCLE and CYCLED while SEEDED = 0 (R163). Safe: taken as the
  spec says. -/
  | unseeded
  /-- Code 0x03. Raised by SEED when its sequence exceeds a capacity (R164). Safe: taken as the spec says. -/
  | seedOverflow
  deriving DecidableEq, Repr

/-- Why a step could have no meaning. No step of this model is refused. -/
inductive Refusal where
  /-- An instruction with no meaning yet; raised only by an arm of `exec`, and no arm raises it. Safe. -/
  | notModelled (mnemonic : String)
  deriving DecidableEq, Repr

/-- What HOST does to the block (20_memory.md R41): one command frame on CMD, or the RESET input. -/
inductive Input where
  /-- A command frame on CMD (30_encoding.md R60). -/
  | frame (f : Frame)
  /-- The RESET input (70_reset_and_hazards.md R190). -/
  | reset
  deriving DecidableEq, Repr

/-- One block, `(S[0], S[1], S[2], C, N, SEEDSTORE, SEEDED)` of 10_state.md R20, its open parameters, and, as the model's
own fields, its ports and two counters of free values. -/
structure State where
  /-- S[0], a binary64 pattern (10_state.md R21). -/
  s0 : BitVec 64
  /-- S[1], a binary64 pattern (10_state.md R21). -/
  s1 : BitVec 64
  /-- S[2], a binary64 pattern (10_state.md R21). -/
  s2 : BitVec 64
  /-- C, the carry (10_state.md R23). -/
  c : BitVec 21
  /-- N, the hash accumulator (10_state.md R26). -/
  n : BitVec 32
  /-- SEEDSTORE with COUNT and every LEN (10_state.md R25, 20_memory.md R40). -/
  seedStore : SeedSeq
  /-- SEEDED (10_state.md R29). -/
  seeded : Bool
  /-- The open parameters of this block (00_scope.md R7); no step changes them. -/
  params : Params
  /-- CMD and RESET: what HOST does next, in order of arrival (20_memory.md R49; assumption 3). -/
  inputs : List Input
  /-- RSP: the response frames sent so far, oldest first (00_scope.md R13; assumption 4). -/
  rsp : List Frame
  /-- ENT: the words ENTROPY is known to answer next; after them the answers are free (assumption 5). -/
  ent : List Word
  /-- How many answers came from `Config.entropyWord` (assumption 5). -/
  entFree : Nat
  /-- How many RESET inputs were taken; it indexes the free values after one (assumption 2). -/
  resets : Nat
  deriving DecidableEq, Repr

/-- The reset state: SEEDED = 0 (10_state.md R32). The spec leaves S, C, N and SEEDSTORE unspecified; zero and the empty
sequence are the model's (DESIGN CHOICE, assumption 1, unsafe), the parameters are the spec's defaults, and nothing is on
a port. -/
def State.reset : State where
  s0 := 0
  s1 := 0
  s2 := 0
  c := 0
  n := 0
  seedStore := []
  seeded := false
  params := Params.default
  inputs := []
  rsp := []
  ent := []
  entFree := 0
  resets := 0

end Sys2Proof.Machine
end

