-- ==== Sys2Proof/Machine/Flags.lean ====
section
/-! DEFINITION. The block has no flags, condition codes or predicates (10_state.md R28). What reports on a command is the
status word of its response (30_encoding.md R72, R73); the one status bit is SEEDED (R29), written and read in Ops.lean. -/

namespace Sys2Proof.Machine

/-- STATUS 0x00, OK (30_encoding.md R73). -/
def statusOk : BitVec 8 := 0x00#8

/-- The STATUS code of a fault (30_encoding.md R73, 60_exceptions.md R161). -/
def faultCode : Fault → BitVec 8
  | .illegalCommand => 0x01#8
  | .unseeded => 0x02#8
  | .seedOverflow => 0x03#8

/-- The status word ST: `ST[7:0]` STATUS, `ST[8]` V, `ST[31:9]` 0 (30_encoding.md R72). -/
def statusWord (status : BitVec 8) (v : Bool) : Word := 0#23 ++ BitVec.ofBool v ++ status

/-- The response of a command that completes without a value (30_encoding.md R72). -/
def okFrame : Frame := ⟨statusWord statusOk false, []⟩

/-- The response of a command that returns the 64-bit result `res`, low half first (30_encoding.md R72, R74). -/
def valueFrame (res : BitVec 64) : Frame :=
  ⟨statusWord statusOk true, [res.extractLsb' 0 32, res.extractLsb' 32 32]⟩

/-- The response of a fault: its code alone (30_encoding.md R72, 60_exceptions.md R165). -/
def faultFrame (f : Fault) : Frame := ⟨statusWord (faultCode f) false, []⟩

end Sys2Proof.Machine
end

