-- ==== Sys2Proof/Machine/Float64.lean ====
section
/-! DEFINITION. The floating-point primitives of 00_scope.md R10 on the finite non-negative binary64 values, each operation
rounded once to nearest, ties to even, and the 64-bit patterns of the values. -/

namespace Sys2Proof.Machine

/-- The number of bits of `p`, 0 for 0 (40_mash.md R96). -/
def bitLen (p : Nat) : Nat := if p = 0 then 0 else Nat.log2 p + 1

/-- `p / 2^sh` rounded to the nearest integer, ties to the even one (00_scope.md R10). -/
def rneShift (p sh : Nat) : Nat :=
  let q := p / 2 ^ sh
  let r := 2 * (p % 2 ^ sh)
  if 2 ^ sh < r ∨ (r = 2 ^ sh ∧ q % 2 = 1) then q + 1 else q

/-- RNE53 of the real `p * 2^(exp - 1074 - low)`: to 53 significant bits, and never below the spacing `2^-1074` of the
smallest values (00_scope.md R10; no rounding above the largest finite value, assumption 13). -/
def rne53 (p exp low : Nat) : F64 :=
  let sh := max (bitLen p - 53) (low - exp)
  ⟨rneShift p sh, exp + sh - low⟩

/-- The real value of `a` counted in units of `2^-1074`: two pairs stand for one value when this is the same. -/
def funits (a : F64) : Nat := a.sig * 2 ^ a.exp

/-- `F(n)`, an integer as a value (00_scope.md R10). -/
def fOfNat (n : Nat) : F64 := ⟨n, 1074⟩

/-- `a (*) b = RNE53(a * b)` (00_scope.md R10). -/
def fmul (a b : F64) : F64 := rne53 (a.sig * b.sig) (a.exp + b.exp) 1074

/-- The significand of `a` written at the exponent `e`, for `e ≤ a.exp`. -/
def alignTo (e : Nat) (a : F64) : Nat := a.sig * 2 ^ (a.exp - e)

/-- `a (+) b = RNE53(a + b)` (00_scope.md R10). -/
def fadd (a b : F64) : F64 :=
  let e := min a.exp b.exp
  rne53 (alignTo e a + alignTo e b) e 0

/-- `a (-) b = RNE53(a - b)`, for `b ≤ a` (00_scope.md R10). -/
def fsub (a b : F64) : F64 :=
  let e := min a.exp b.exp
  rne53 (alignTo e a - alignTo e b) e 0

/-- `a < b`, a comparison of real values (41_init.md R110). -/
def flt (a b : F64) : Bool :=
  let e := min a.exp b.exp
  decide (alignTo e a < alignTo e b)

/-- `floor(a)` (00_scope.md R9). -/
def ffloor (a : F64) : Nat :=
  if 1074 ≤ a.exp then a.sig * 2 ^ (a.exp - 1074) else a.sig / 2 ^ (1074 - a.exp)

/-- `U32(a)`, unsigned 32-bit truncation: `floor(a) mod 2^32` (00_scope.md R9, 40_mash.md R97). -/
def u32 (a : F64) : Nat := ffloor a % 2 ^ 32

/-- `2^-32` (00_scope.md R14). -/
def twoNeg32 : F64 := ⟨1, 1042⟩

/-- `2^-53` (00_scope.md R14). -/
def twoNeg53 : F64 := ⟨1, 1021⟩

/-- `K = 3462916383 * 2^-37`, DOC00's 0.02519603282416938 (00_scope.md R14). -/
def multK : F64 := ⟨3462916383, 1037⟩

/-- The pattern of a value: biased exponent in bits 62:52, fraction in bits 51:0, sign 0 (00_scope.md R10). With the
leading one of a normal value's significand counted in, the field is the exponent less one; a subnormal value's field is
0. -/
def bits64 (a : F64) : BitVec 64 :=
  let t := bitLen a.sig + a.exp - 53
  if a.sig = 0 then 0
  else BitVec.ofNat 64 (t * 2 ^ 52 + (if t ≤ a.exp then a.sig * 2 ^ (a.exp - t) else a.sig / 2 ^ (t - a.exp)))

/-- The value of a pattern (00_scope.md R10). A set sign bit, an infinity or a NaN is outside F64: a free value
(assumption 9). -/
def valueOf (w : BitVec 64) : F64 :=
  let e := w.toNat / 2 ^ 52
  let f := w.toNat % 2 ^ 52
  if e = 0 then ⟨f, 0⟩
  else if e < 2047 then ⟨2 ^ 52 + f, e - 1⟩
  else Config.valueOutsideF64 w

/-- The state word of the fraction `X * 2^-32`, `S = F(X) (*) 2^-32` (10_state.md R33). -/
def fracWord (x : BitVec 32) : BitVec 64 := bits64 (fmul (fOfNat x.toNat) twoNeg32)

/-- The integer view of a state word, `X = S * 2^32` (10_state.md R33). -/
def intView (w : BitVec 64) : BitVec 32 := BitVec.ofNat 32 (ffloor (fmul (valueOf w) (fOfNat (2 ^ 32))))

end Sys2Proof.Machine
end

