-- ==== Sys2Proof/Machine/Operands.lean ====
section
/-! DEFINITION. What the commands compute of their operands: the size of a seed sequence, the text of an entropy word, the
count of CYCLE. -/

namespace Sys2Proof.Machine

/-- The total number of codes over all elements (41_init.md R111). -/
def totalCodes (q : SeedSeq) : Nat := (q.map List.length).sum

/-- A sequence fits the seed store: neither capacity parameter is exceeded (41_init.md R111, 60_exceptions.md R164). -/
def fitsStore (p : Params) (q : SeedSeq) : Bool :=
  decide (q.length ≤ p.seedMaxElems) &&
    (match p.seedMaxCodes with
      | none => true
      | some m => decide (totalCodes q ≤ m))

/-- The loop of Dec: digits are put before `acc` while the number is not 0; ten rounds are enough for a 32-bit word
(41_init.md R114). -/
def decDigits : Nat → Nat → Text → Text
  | 0, _, acc => acc
  | k + 1, w, acc => if w = 0 then acc else decDigits k (w / 10) (BitVec.ofNat 21 (48 + w % 10) :: acc)

/-- Dec(w): the decimal text of a word (41_init.md R114). -/
def decText (w : Word) : Text := if w = 0 then [48#21] else decDigits 10 w.toNat []

/-- `max(n, 1)`, how many draws CYCLE n discards (43_derived.md R144). -/
def drawCount (n : Int) : Nat := (max n 1).toNat

end Sys2Proof.Machine
end

