-- ==== Sys2Proof/Machine/Ops.lean ====
section
/-! DEFINITION. The named operations over the seed store, the ports and the status bit, and taking a fault. -/

namespace Sys2Proof.Machine

/-- Send one response frame on RSP (20_memory.md R41). -/
def respond (f : Frame) (s : State) : State := { s with rsp := s.rsp ++ [f] }

/-- `return`: the command ends with no value (00_scope.md R11, 30_encoding.md R72). -/
def answerOk (s : State) : Host.Outcome State Fault Refusal := .next (respond okFrame s)

/-- `return v`: the command ends with the value whose pattern is `res` (00_scope.md R11, 30_encoding.md R72, R74). -/
def answerValue (res : BitVec 64) (s : State) : Host.Outcome State Fault Refusal := .next (respond (valueFrame res) s)

/-- `raise`: TAKING A FAULT. The response is the one word [code]; every piece of the block's state is as it was; nothing
else is saved, no handler runs and there is no return (00_scope.md R11, 60_exceptions.md R165, R168). -/
def raise (f : Fault) (s : State) : Host.Outcome State Fault Refusal := .next (respond (faultFrame f) s)

/-- The first line of every command that reads generator state or the seed store: `if SEEDED == 0: raise Unseeded()`
(60_exceptions.md R163). -/
def whenSeeded (body : State → Host.Outcome State Fault Refusal) (s : State) : Host.Outcome State Fault Refusal :=
  if s.seeded then body s else raise .unseeded s

/-- `SEEDED <- 1` (10_state.md R29). -/
def setSeeded (s : State) : State := { s with seeded := true }

/-- `SeedLoad()`: the whole stored sequence (20_memory.md R42). -/
def seedLoad (s : State) : SeedSeq := s.seedStore

/-- `SeedStore(q)`: replace COUNT, every LEN and every code (20_memory.md R43). -/
def seedReplace (q : SeedSeq) (s : State) : State := { s with seedStore := q }

/-- `MemRead((j, i), 1)`: code i of element j, `none` outside the stored shape, where no rule reads (20_memory.md R40). -/
def memRead (j i : Nat) (s : State) : Option Code :=
  match s.seedStore[j]? with
  | none => none
  | some e => e[i]?

/-- SEEDSTORE holds what its capacity parameters admit (00_scope.md R7, 60_exceptions.md R164). A sequence of sequences
has one form only, so this is all a well-formed store needs (assumption 19). -/
def Memory.wf (s : State) : Bool := fitsStore s.params s.seedStore

/-- `Entropy()`: the next word ENTROPY answers, any word; it is consumed (20_memory.md R46, R54; assumption 5). -/
def entropy (s : State) : Word × State :=
  match s.ent with
  | w :: ws => (w, { s with ent := ws })
  | [] => (Config.entropyWord s.entFree, { s with entFree := s.entFree + 1 })

/-- `w0 = Entropy(); w1 = Entropy(); w2 = Entropy()` and the sequence of their texts (41_init.md R112). -/
def entropySeed (s : State) : SeedSeq × State :=
  let r0 := entropy s
  let r1 := entropy r0.2
  let r2 := entropy r1.2
  ([decText r0.1, decText r1.1, decText r2.1], r2.2)

/-- The next thing HOST does, taken off the port (30_encoding.md R60, 20_memory.md R49); `none` while nothing has
arrived. -/
def takeInput (s : State) : Option (Input × State) :=
  match s.inputs with
  | [] => none
  | i :: rest => some (i, { s with inputs := rest })

/-- The RESET input: SEEDED = 0; S, C, N and SEEDSTORE are unspecified, here free values; no response; the parameters and
the ports stay (70_reset_and_hazards.md R190, 10_state.md R32; assumption 2). -/
def takeReset (s : State) : State :=
  { s with
    s0 := Config.resetStateWord s.resets 0
    s1 := Config.resetStateWord s.resets 1
    s2 := Config.resetStateWord s.resets 2
    c := Config.resetCarry s.resets
    n := Config.resetAccumulator s.resets
    seedStore := Config.resetSeedStore s.resets
    seeded := false
    resets := s.resets + 1 }

end Sys2Proof.Machine
end

