-- ==== Sys2Proof/Machine/Draw.lean ====
section
/-! DEFINITION. The draw primitive (42_draw.md R130) and what the derived commands compute of the values drawn. -/

namespace Sys2Proof.Machine

/-- `A = 2091639` (00_scope.md R14). -/
def drawMult : Nat := 2091639

/-- `C <- k`: the carry register is 21 bits wide (10_state.md R23; assumption 10). -/
def carryOf (k : Nat) : BitVec 21 := if k < 2 ^ 21 then BitVec.ofNat 21 k else Config.carryTooWide k

/-- `t = F(A) (*) S[0] (+) F(C) (*) 2^-32` (42_draw.md R130). -/
def drawSum (w : BitVec 64) (c : BitVec 21) : F64 :=
  fadd (fmul (fOfNat drawMult) (valueOf w)) (fmul (fOfNat c.toNat) twoNeg32)

/-- The new carry, `floor(t)`, and the new state word, `t (-) F(floor(t))` (42_draw.md R130). -/
def drawSplit (w : BitVec 64) (c : BitVec 21) : BitVec 21 × BitVec 64 :=
  let t := drawSum w c
  let k := ffloor t
  (carryOf k, bits64 (fsub t (fOfNat k)))

/-- Draw(): shift the words, split t; the value returned is the new S[2] (42_draw.md R130). -/
def draw (s : State) : State :=
  let d := drawSplit s.s0 s.c
  { s with s0 := s.s1, s1 := s.s2, s2 := d.2, c := d.1 }

/-- `for i in 0..k: Draw()` (43_derived.md R144). -/
def drawTimes : Nat → State → State
  | 0, s => s
  | k + 1, s => drawTimes k (draw s)

/-- `v = a (+) (F(m) (*) 2^-53)` with `m = floor(b (*) F(2^21))`, for the draws a then b (43_derived.md R140). -/
def fractOf (a b : BitVec 64) : BitVec 64 :=
  let m := ffloor (fmul (valueOf b) (fOfNat (2 ^ 21)))
  bits64 (fadd (valueOf a) (fmul (fOfNat m) twoNeg53))

/-- `v = a (*) F(2^32)` for the draw a (43_derived.md R142). -/
def int32Of (a : BitVec 64) : BitVec 64 := bits64 (fmul (valueOf a) (fOfNat (2 ^ 32)))

end Sys2Proof.Machine
end

