-- ==== Sys2Proof/Machine/Drawing.lean ====
section
/-! DEFINITION. The drawing commands RANDOM (42_draw.md R131), FRACT53, INT32, CYCLE and CYCLED (43_derived.md). -/

namespace Sys2Proof.Machine

/-- RANDOM (42_draw.md R131). -/
def execRandom (s : State) : Host.Outcome State Fault Refusal :=
  whenSeeded (fun s =>
    let s1 := draw s
    answerValue s1.s2 s1) s

/-- FRACT53 (43_derived.md R140): the first draw is the high-order term (C1). -/
def execFract53 (s : State) : Host.Outcome State Fault Refusal :=
  whenSeeded (fun s =>
    let s1 := draw s
    let s2 := draw s1
    answerValue (fractOf s1.s2 s2.s2) s2) s

/-- INT32 (43_derived.md R142). -/
def execInt32 (s : State) : Host.Outcome State Fault Refusal :=
  whenSeeded (fun s =>
    let s1 := draw s
    answerValue (int32Of s1.s2) s1) s

/-- CYCLE n (43_derived.md R144): `max(n, 1)` draws, values discarded. -/
def execCycle (n : Int) (s : State) : Host.Outcome State Fault Refusal :=
  whenSeeded (fun s => answerOk (drawTimes (drawCount n) s)) s

/-- CYCLED (43_derived.md R145): one draw, value discarded. -/
def execCycled (s : State) : Host.Outcome State Fault Refusal :=
  whenSeeded (fun s => answerOk (draw s)) s

end Sys2Proof.Machine
end

