-- ==== Sys2Proof/Machine/Mash.lean ====
section
/-! DEFINITION. The Mash hash accumulator (40_mash.md) and Init (41_init.md R110), in the floating-point form the rules
give them. -/

namespace Sys2Proof.Machine

/-- `N0 = 4022871197` (00_scope.md R14). -/
def accStart : BitVec 32 := 4022871197#32

/-- Absorb(k): one round, line by line (40_mash.md R92). -/
def absorb (n : BitVec 32) (k : Code) : BitVec 32 :=
  let n1 := (n.toNat + k.toNat) % 2 ^ 32
  let h2 := fmul multK (fOfNat n1)
  let n3 := u32 h2
  let h4 := fsub h2 (fOfNat n3)
  let h5 := fmul h4 (fOfNat n3)
  let n6 := u32 h5
  let h7 := fsub h5 (fOfNat n6)
  let g8 := fmul h7 (fOfNat (2 ^ 32))
  let s8 := fadd (fOfNat n6) g8
  BitVec.ofNat 32 (u32 s8)

/-- The rounds of one Mash call, one per code, in order (40_mash.md R94). -/
def mashAcc (d : Text) (n : BitVec 32) : BitVec 32 := d.foldl absorb n

/-- Mash(d): the fraction returned and the accumulator kept for the next call (40_mash.md R94). -/
def mash (d : Text) (n : BitVec 32) : F64 × BitVec 32 :=
  let n' := mashAcc d n
  (fmul (fOfNat (n'.toNat % 2 ^ 32)) twoNeg32, n')

/-- One subtraction of Init, `v = S[i] (-) m; if v < 0: v = v (+) 1`. A negative v is `-(m (-) x)`, since rounding to
nearest is symmetric, and then `v (+) 1` is `1 (-) (m (-) x)` (41_init.md R110, R115; assumption 11). -/
def subtractWrap (x m : F64) : F64 := if flt x m then fsub (fOfNat 1) (fsub m x) else fsub x m

/-- The values Init works on: the three state words and the accumulator (41_init.md R110). -/
structure InitWork where
  w0 : F64
  w1 : F64
  w2 : F64
  n  : BitVec 32
  deriving DecidableEq, Repr

/-- The text of one space, `SP = [32]` (00_scope.md R14). -/
def spaceText : Text := [32#21]

/-- HashNew and step 2 of Init: three Mash calls on one hasher (40_mash.md R91, 41_init.md R110). -/
def initBase : InitWork :=
  let m0 := mash spaceText accStart
  let m1 := mash spaceText m0.2
  let m2 := mash spaceText m1.2
  ⟨m0.1, m1.1, m2.1, m2.2⟩

/-- Step 3 of Init for one element: three Mash calls on its text, one per state word (41_init.md R110). -/
def initElement (a : InitWork) (e : Text) : InitWork :=
  let m0 := mash e a.n
  let m1 := mash e m0.2
  let m2 := mash e m1.2
  ⟨subtractWrap a.w0 m0.1, subtractWrap a.w1 m1.1, subtractWrap a.w2 m2.1, m2.2⟩

/-- All of Init: the baseline, then every element in order (41_init.md R110). -/
def initWork (q : SeedSeq) : InitWork := q.foldl initElement initBase

/-- Init(q): writes S[0], S[1], S[2], C and N (41_init.md R110). -/
def init (q : SeedSeq) (s : State) : State :=
  let a := initWork q
  { s with s0 := bits64 a.w0, s1 := bits64 a.w1, s2 := bits64 a.w2, c := 1#21, n := a.n }

end Sys2Proof.Machine
end

