-- ==== Sys2Proof/Machine/Seeding.lean ====
section
/-! DEFINITION. The reinitialising commands SEED, SEEDR and RESTART (41_init.md). -/

namespace Sys2Proof.Machine

/-- `SeedStore(q); Init(SeedLoad()); SEEDED <- 1; return`, what SEED and SEEDR share (41_init.md R111, R112). -/
def storeAndInit (q : SeedSeq) (s : State) : Host.Outcome State Fault Refusal :=
  let s := seedReplace q s
  answerOk (setSeeded (init (seedLoad s) s))

/-- SEED q (41_init.md R111): the capacity checks, then store and reinitialise. -/
def execSeed (q : SeedSeq) (s : State) : Host.Outcome State Fault Refusal :=
  if fitsStore s.params q then storeAndInit q s else raise .seedOverflow s

/-- SEEDR (41_init.md R112): three entropy words as texts, then store and reinitialise. -/
def execSeedr (s : State) : Host.Outcome State Fault Refusal :=
  let r := entropySeed s
  storeAndInit r.1 r.2

/-- RESTART (41_init.md R113): reinitialise from the retained sequence. -/
def execRestart (s : State) : Host.Outcome State Fault Refusal :=
  whenSeeded (fun s => answerOk (init (seedLoad s) s)) s

end Sys2Proof.Machine
end

