-- ==== Sys2Proof/Machine/Dispatch.lean ====
section
/-! DEFINITION. One arm per command (30_encoding.md R68). -/

namespace Sys2Proof.Machine

def exec (i : Instr) (s : State) : Host.Outcome State Fault Refusal :=
  match i with
  | .seed q => Sys2Proof.Machine.execSeed q s
  | .seedr => Sys2Proof.Machine.execSeedr s
  | .restart => Sys2Proof.Machine.execRestart s
  | .random => Sys2Proof.Machine.execRandom s
  | .fract53 => Sys2Proof.Machine.execFract53 s
  | .int32 => Sys2Proof.Machine.execInt32 s
  | .cycle n => Sys2Proof.Machine.execCycle n s
  | .cycled => Sys2Proof.Machine.execCycled s

end Sys2Proof.Machine
end

