-- ==== Sys2Proof/Machine/Step.lean ====
section
/-! DEFINITION. One step of the block: consider the next thing HOST does (30_encoding.md R60, 20_memory.md R47). -/

namespace Sys2Proof.Machine

/-- One command frame, start to end: a frame that does not decode is IllegalCommand, in any state (60_exceptions.md R162,
R166). -/
def runFrame (f : Frame) (s : State) : Host.Outcome State Fault Refusal :=
  match decode f with
  | .ok i => exec i s
  | .error _ => raise .illegalCommand s

/-- One step: nothing while HOST does nothing (70_reset_and_hazards.md R190, 60_exceptions.md R175), RESET, or one
command. -/
def step (s : State) : Host.Outcome State Fault Refusal :=
  match takeInput s with
  | none => .next s
  | some (.reset, t) => .next (takeReset t)
  | some (.frame f, t) => runFrame f t

/-- HOST sends the instruction's frame next; nothing else changes (assumptions 3 and 14). -/
def State.withFetchWord (s : State) (nbits w : Nat) : State :=
  { s with inputs := .frame (tableFrame nbits w) :: s.inputs }

end Sys2Proof.Machine
end

