-- ==== Sys2Proof/Machine/Assembly.lean ====
section
/-! DEFINITION. The assembly text of a command (30_encoding.md R75, R76) and the host calls it stands for (R77): software in
front of the block. `exec` and `step` use none of it. What the syntax leaves open is assumption 15. -/

namespace Sys2Proof.Machine

/-- TEXT_UNIT, the host-side parameter: what one character code is in the host's text (00_scope.md R7, D5). -/
inductive TextUnit where
  | codePoint
  | utf16
  deriving DecidableEq, Repr

/-- The codes of one character; a code point above 0xFFFF is two surrogate units in UTF-16 (30_encoding.md R66, R75). -/
def charCodes (u : TextUnit) (ch : Char) : Text :=
  match u with
  | .codePoint => [BitVec.ofNat 21 ch.toNat]
  | .utf16 =>
    if ch.toNat < 0x10000 then [BitVec.ofNat 21 ch.toNat]
    else
      let d := ch.toNat - 0x10000
      [BitVec.ofNat 21 (0xD800 + d / 0x400), BitVec.ofNat 21 (0xDC00 + d % 0x400)]

/-- A string element stands for the list of its characters' codes, in order (30_encoding.md R75, R76). -/
def textCodes (u : TextUnit) (cs : List Char) : Text := cs.flatMap (charCodes u)

/-- What a line is made of. -/
inductive AsmToken where
  | word (cs : List Char)
  | str (cs : List Char)
  | comma
  | openBrace
  | closeBrace
  | openBracket
  | closeBracket
  deriving DecidableEq, Repr

/-- What a character does outside a string. -/
inductive CharClass where
  | comment
  | blank
  | quote
  | mark (t : AsmToken)
  | plain
  deriving DecidableEq, Repr

/-- The class of a character outside a string (30_encoding.md R75); 123 and 125 are the codes of the braces. -/
def charClass (ch : Char) : CharClass :=
  if ch = ';' then .comment
  else if ch = ' ' ∨ ch = '\t' then .blank
  else if ch = '"' then .quote
  else if ch = ',' then .mark .comma
  else if ch = '[' then .mark .openBracket
  else if ch = ']' then .mark .closeBracket
  else if ch.toNat = 123 then .mark .openBrace
  else if ch.toNat = 125 then .mark .closeBrace
  else .plain

/-- Where the reader of a line stands: between tokens, or inside a word or a string whose characters so far are held last
first. -/
inductive LexMode where
  | between
  | inWord (acc : List Char)
  | inString (acc : List Char)
  deriving DecidableEq, Repr

/-- The characters of a word that is being read. -/
def pendingChars : LexMode → List Char
  | .inWord acc => acc
  | _ => []

/-- The token of a word that ends here. -/
def pendingToken : LexMode → List AsmToken
  | .inWord acc => [.word acc.reverse]
  | _ => []

/-- The tokens of a line; `none` where a string does not end (30_encoding.md R75). -/
def lexLine : List Char → LexMode → Option (List AsmToken)
  | [], .inString _ => none
  | [], m => some (pendingToken m)
  | ch :: cs, .inString acc =>
    if ch = '"' then (lexLine cs .between).map (AsmToken.str acc.reverse :: ·)
    else lexLine cs (.inString (ch :: acc))
  | ch :: cs, m =>
    match charClass ch with
    | .comment => some (pendingToken m)
    | .blank => (lexLine cs .between).map (pendingToken m ++ ·)
    | .quote => (lexLine cs (.inString [])).map (pendingToken m ++ ·)
    | .mark t => (lexLine cs .between).map (pendingToken m ++ t :: ·)
    | .plain => lexLine cs (.inWord (ch :: pendingChars m))

/-- The value of a digit in a base of at most 16. -/
def digitValue (base : Nat) (ch : Char) : Option Nat :=
  let v := ch.toNat
  let d := if 48 ≤ v ∧ v ≤ 57 then v - 48 else if 97 ≤ v ∧ v ≤ 102 then v - 87
    else if 65 ≤ v ∧ v ≤ 70 then v - 55 else 16
  if d < base then some d else none

/-- The number a list of digits stands for, with the digits before it. -/
def readDigits (base : Nat) : List Char → Nat → Option Nat
  | [], acc => some acc
  | ch :: cs, acc =>
    match digitValue base ch with
    | none => none
    | some d => readDigits base cs (acc * base + d)

/-- A number of at least one digit. -/
def readNumber (base : Nat) : List Char → Option Nat
  | [] => none
  | cs => readDigits base cs 0

/-- A `<code>`: a decimal or 0x-prefixed integer 0 to 2097151 (30_encoding.md R75). -/
def readCode (cs : List Char) : Option Code :=
  let v := match cs with
    | '0' :: 'x' :: ds => readNumber 16 ds
    | ds => readNumber 10 ds
  match v with
  | none => none
  | some n => if n < 2 ^ 21 then some (BitVec.ofNat 21 n) else none

/-- The operand of `cycle <n>`: a signed decimal or 0x-prefixed 32-bit pattern (30_encoding.md R75, R64). R75 does not say
which signs a signed decimal may carry: here a minus sign or none, and a leading plus sign is rejected, as is any sign before
0x (DESIGN CHOICE, assumption 15). -/
def readCount : List Char → Option Int
  | '0' :: 'x' :: ds =>
    match readNumber 16 ds with
    | none => none
    | some n => if n < 2 ^ 32 then some (immCount (BitVec.ofNat 32 n)) else none
  | '-' :: ds =>
    match readNumber 10 ds with
    | none => none
    | some n => if n ≤ 2 ^ 31 then some (-(n : Int)) else none
  | ds =>
    match readNumber 10 ds with
    | none => none
    | some n => if n < 2 ^ 31 then some n else none

/-- Where the reader of a list of elements stands. -/
inductive SeqMode where
  | wantElement
  | afterElement
  | firstCode
  | wantCode
  | afterCode
  deriving DecidableEq, Repr

/-- `<elem>, <elem>, ...`, at least one; `q` holds the elements read, `e` the codes of the one being read, both last
first (30_encoding.md R75). The spec does not say what a line of more elements or codes than a frame can carry stands for: here
it stands for one SEED of all of them, which is not `wellFormed` and has no frame (DESIGN CHOICE, assumption 22). -/
def readElements (u : TextUnit) : List AsmToken → SeqMode → SeedSeq → Text → Option SeedSeq
  | [], .afterElement, q, _ => some q.reverse
  | .str cs :: ts, .wantElement, q, _ => readElements u ts .afterElement (textCodes u cs :: q) []
  | .openBrace :: ts, .wantElement, q, _ => readElements u ts .firstCode q []
  | .comma :: ts, .afterElement, q, _ => readElements u ts .wantElement q []
  | .closeBrace :: ts, .firstCode, q, _ => readElements u ts .afterElement ([] :: q) []
  | .closeBrace :: ts, .afterCode, q, e => readElements u ts .afterElement (e.reverse :: q) []
  | .comma :: ts, .afterCode, q, e => readElements u ts .wantCode q e
  | .word cs :: ts, .firstCode, q, e => (readCode cs).bind fun c => readElements u ts .afterCode q (c :: e)
  | .word cs :: ts, .wantCode, q, e => (readCode cs).bind fun c => readElements u ts .afterCode q (c :: e)
  | _, _, _, _ => none

/-- What a line of assembly text is. -/
inductive AsmLine where
  /-- Nothing but blanks and a comment. -/
  | empty
  | command (i : Instr)
  /-- Not a line of the syntax. -/
  | rejected
  deriving DecidableEq, Repr

/-- The command of a line's tokens (30_encoding.md R75). `seed` with no operand is rejected; `cycle` alone is CYCLED
(R76). -/
def readCommand (u : TextUnit) : List AsmToken → AsmLine
  | [] => .empty
  | [.word ['s', 'e', 'e', 'd', 'r']] => .command .seedr
  | [.word ['r', 'e', 's', 't', 'a', 'r', 't']] => .command .restart
  | [.word ['r', 'a', 'n', 'd', 'o', 'm']] => .command .random
  | [.word ['f', 'r', 'a', 'c', 't', '5', '3']] => .command .fract53
  | [.word ['i', 'n', 't', '3', '2']] => .command .int32
  | [.word ['c', 'y', 'c', 'l', 'e']] => .command .cycled
  | [.word ['c', 'y', 'c', 'l', 'e'], .word n] =>
    match readCount n with
    | some k => .command (.cycle k)
    | none => .rejected
  | [.word ['s', 'e', 'e', 'd'], .openBracket, .closeBracket] => .command (.seed [])
  | .word ['s', 'e', 'e', 'd'] :: ts =>
    match readElements u ts .wantElement [] [] with
    | some q => .command (.seed q)
    | none => .rejected
  | _ => .rejected

/-- One line of assembly text (30_encoding.md R75). -/
def assembleLine (u : TextUnit) (line : List Char) : AsmLine :=
  match lexLine line .between with
  | some ts => readCommand u ts
  | none => .rejected

/-- DOC00's functional surface as the host calls it (30_encoding.md R77); texts are already texts (00_scope.md R4 (b)). -/
inductive HostCall where
  /-- `seed(values)`; `none` is the absent or falsy seed. -/
  | seed (values : Option (List (List Char)))
  | restart
  | random
  | fract53
  | int32
  /-- `cycle(n)`; `none` is n omitted. -/
  | cycle (n : Option Int)
  deriving DecidableEq, Repr

/-- The command the host sends for a call (30_encoding.md R77). A call whose argument no frame can carry (`cycle(n)` with n
outside `-2^31` to `2^31 - 1`, a seed of more than 65535 values or with a text of `2^32` codes or more) is one the spec gives
no command for: here it stands for the one CYCLE n or SEED all the same, which is not `wellFormed` (DESIGN CHOICE,
assumption 22). -/
def commandOf (u : TextUnit) : HostCall → Instr
  | .seed (some vs) => .seed (vs.map (textCodes u))
  | .seed none => .seedr
  | .restart => .restart
  | .random => .random
  | .fract53 => .fract53
  | .int32 => .int32
  | .cycle (some n) => .cycle n
  | .cycle none => .cycled

end Sys2Proof.Machine
end

