-- ==== Sys2Proof/Machine/IntegerForm.lean ====
section
/-! DEFINITION. The rules' second form, on integers alone (40_mash.md R96, 41_init.md R116, 42_draw.md R132, 43_derived.md
R141): what the floating-point machine is claimed to compute. `exec` and `step` use none of it. -/

namespace Sys2Proof.Machine

/-- Rnd53: a natural number rounded to 53 significant bits, nearest, ties to even (40_mash.md R96). -/
def rnd53 (p : Nat) : Nat :=
  let b := bitLen p
  if b ≤ 53 then p
  else
    let sh := b - 53
    let q := p / 2 ^ sh
    let r := p % 2 ^ sh
    let half := 2 ^ (sh - 1)
    (if half < r ∨ (r = half ∧ q % 2 = 1) then q + 1 else q) * 2 ^ sh

/-- `KM = 3462916383`, so that `K = KM * 2^-37` (40_mash.md R96). -/
def multKM : Nat := 3462916383

/-- AbsorbNat(k), one round on natural numbers (40_mash.md R96). -/
def absorbNat (n : BitVec 32) (k : Code) : BitVec 32 :=
  let n1 := (n.toNat + k.toNat) % 2 ^ 32
  let p2 := rnd53 (multKM * n1)
  let n3 := p2 / 2 ^ 37
  let f4 := p2 % 2 ^ 37
  let p5 := rnd53 (f4 * n3)
  let n6 := p5 / 2 ^ 37
  let f7 := p5 % 2 ^ 37
  let p8 := n6 * 32 + f7
  BitVec.ofNat 32 (p8 / 32 % 2 ^ 32)

/-- MashN(d): run Mash(d), return N (41_init.md R116). -/
def mashNat (d : Text) (n : BitVec 32) : BitVec 32 := d.foldl absorbNat n

/-- The integer words and the accumulator of InitInt (41_init.md R116). -/
structure IntInit where
  x0 : BitVec 32
  x1 : BitVec 32
  x2 : BitVec 32
  n  : BitVec 32
  deriving DecidableEq, Repr

/-- Step 2 of InitInt: three MashN calls on one hasher (41_init.md R116). -/
def initBaseNat : IntInit :=
  let m0 := mashNat spaceText accStart
  let m1 := mashNat spaceText m0
  let m2 := mashNat spaceText m1
  ⟨m0, m1, m2, m2⟩

/-- Step 3 of InitInt for one element; subtraction is modulo `2^32` (41_init.md R116). -/
def initElementNat (a : IntInit) (e : Text) : IntInit :=
  let m0 := mashNat e a.n
  let m1 := mashNat e m0
  let m2 := mashNat e m1
  ⟨a.x0 - m0, a.x1 - m1, a.x2 - m2, m2⟩

/-- InitInt(q) (41_init.md R116). -/
def initNat (q : SeedSeq) : IntInit := q.foldl initElementNat initBaseNat

/-- The integer view `(X[0], X[1], X[2], C)` of a seeded block (10_state.md R33). -/
structure IntWords where
  x0 : BitVec 32
  x1 : BitVec 32
  x2 : BitVec 32
  c  : BitVec 21
  deriving DecidableEq, Repr

/-- `T = A * X[0] + C` (42_draw.md R132). -/
def IntWords.sum (x : IntWords) : Nat := drawMult * x.x0.toNat + x.c.toNat

/-- DrawInt() (42_draw.md R132). -/
def IntWords.draw (x : IntWords) : IntWords :=
  ⟨x.x1, x.x2, BitVec.ofNat 32 (x.sum % 2 ^ 32), BitVec.ofNat 21 (x.sum / 2 ^ 32)⟩

/-- The k-fold iterate of DrawInt (43_derived.md R144). -/
def IntWords.drawTimes : Nat → IntWords → IntWords
  | 0, x => x
  | k + 1, x => IntWords.drawTimes k x.draw

/-- `{xa[31:0], xb[31:11]}`, the 53-bit integer W of FRACT53 (43_derived.md R141). -/
def fract53Nat (xa xb : BitVec 32) : BitVec 53 := xa ++ xb.extractLsb' 11 21

/-- The pattern of `W * 2^-53` (43_derived.md R141). -/
def fract53Word (w : BitVec 53) : BitVec 64 := bits64 (fmul (fOfNat w.toNat) twoNeg53)

/-- The pattern of the integer X as a binary64 number (43_derived.md R143). -/
def int32Word (x : BitVec 32) : BitVec 64 := bits64 (fOfNat x.toNat)

/-- A state whose words and carry are the integers of x (10_state.md R33). -/
def State.withWords (s : State) (x : IntWords) : State :=
  { s with s0 := fracWord x.x0, s1 := fracWord x.x1, s2 := fracWord x.x2, c := x.c }

/-- The words and carry right after InitInt: C = 1 (41_init.md R116). -/
def seedWords (q : SeedSeq) : IntWords :=
  let a := initNat q
  ⟨a.x0, a.x1, a.x2, 1#21⟩

end Sys2Proof.Machine
end

