-- ==== Sys2Proof/Safety.lean ====
section
/-! DEFINITION. What a good state is: the ranges of 10_state.md R22 and R23, the capacity of the seed store, and which
states no observation tells apart (70_reset_and_hazards.md R191). -/

namespace Sys2Proof.Machine

/-- A state word is `X * 2^-32` for a u32 X, and +0 for X = 0 (10_state.md R22). -/
def wordOk (w : BitVec 64) : Bool := w == fracWord (intView w)

/-- R22 read off the pattern alone: w is the pattern of a finite value, sign 0, and that value is `x * 2^-32`
(10_state.md R22, 00_scope.md R10). -/
def isFraction (w : BitVec 64) (x : BitVec 32) : Prop :=
  w.toNat < 2047 * 2 ^ 52 ∧ funits (valueOf w) = x.toNat * 2 ^ 1042

/-- The carry is 0 to A - 1 (10_state.md R23). -/
def carryOk (c : BitVec 21) : Bool := decide (c.toNat < drawMult)

/-- The three words and the carry are in range (10_state.md R22, R23). -/
def State.wordsOk (s : State) : Bool := wordOk s.s0 && wordOk s.s1 && wordOk s.s2 && carryOk s.c

/-- What holds between any two steps: the parameters are legal (00_scope.md R7); once SEEDED = 1 the words and the carry
are in range (10_state.md R22, R23) and the store is within its capacity (60_exceptions.md R164). -/
def State.inv (s : State) : Bool := s.params.legal && (!s.seeded || (s.wordsOk && Memory.wf s))

/-- The state t as s, but for S, C, N and SEEDSTORE, and the same in all where SEEDED = 1: nothing the reset leaves
unspecified is told apart (70_reset_and_hazards.md R191). -/
def sameButUnspecified (s t : State) : Prop :=
  t = { s with s0 := t.s0, s1 := t.s1, s2 := t.s2, c := t.c, n := t.n, seedStore := t.seedStore } ∧
    (s.seeded = true → t = s)

/-- The block's own state is the same in both: every piece of 10_state.md R20. -/
def sameBlock (s t : State) : Prop :=
  t.s0 = s.s0 ∧ t.s1 = s.s1 ∧ t.s2 = s.s2 ∧ t.c = s.c ∧ t.n = s.n ∧ t.seedStore = s.seedStore ∧ t.seeded = s.seeded

/-- The drawing group, whose commands read and write S and C and nothing else of the block (42_draw.md, 43_derived.md). -/
def isDrawing : Instr → Bool
  | .seed _ => false
  | .seedr => false
  | .restart => false
  | .random => true
  | .fract53 => true
  | .int32 => true
  | .cycle _ => true
  | .cycled => true

/-- The commands that read generator state or the seed store, and so need SEEDED = 1 (60_exceptions.md R163). -/
def needsSeeded : Instr → Bool
  | .seed _ => false
  | .seedr => false
  | .restart => true
  | .random => true
  | .fract53 => true
  | .int32 => true
  | .cycle _ => true
  | .cycled => true

/-- The commands that return a value (30_encoding.md R72). -/
def returnsValue : Instr → Bool
  | .seed _ => false
  | .seedr => false
  | .restart => false
  | .random => true
  | .fract53 => true
  | .int32 => true
  | .cycle _ => false
  | .cycled => false

/-- The result a response carries, `RES = {RES_HI, RES_LO}`; `none` for a response without a value (30_encoding.md R72). -/
def resultOf (r : Frame) : Option (BitVec 64) :=
  match r.payload with
  | [lo, hi] => some (hi ++ lo)
  | _ => none

/-- The result of the last response of the next state. -/
def answeredValue : Host.Outcome State Fault Refusal → Option (BitVec 64)
  | .next t => t.rsp.getLast?.bind resultOf
  | .fault _ => none
  | .refused _ => none

/-- Commands one after another, stopping at the first that answers no next state (20_memory.md R49). -/
def execAll : List Instr → State → Host.Outcome State Fault Refusal
  | [], s => .next s
  | i :: is, s =>
    match exec i s with
    | .next t => execAll is t
    | .fault r => .fault r
    | .refused r => .refused r

/-- A payload is `k` elements, each a length word and that many code words with `W[31:21]` zero (30_encoding.md R65,
R66). -/
def seedShape (k : Nat) (payload : List Word) : Prop :=
  ∃ blocks : List (List Word), blocks.length = k ∧
    (∀ b ∈ blocks, b.length < 2 ^ 32 ∧ ∀ w ∈ b, codeRsvField w = 0#11) ∧
    payload = blocks.flatMap fun b => BitVec.ofNat 32 b.length :: b

/-- The list of 30_encoding.md R70: when a frame is illegal. -/
def illegalShape (f : Frame) : Prop :=
  opcField f.header ∉ [0x01#8, 0x02#8, 0x03#8, 0x10#8, 0x11#8, 0x12#8, 0x13#8] ∨
  rsvField f.header ≠ 0#7 ∨
  (pField f.header = 1#1 ∧ opcField f.header ≠ 0x13#8) ∨
  (cntField f.header ≠ 0#16 ∧ opcField f.header ≠ 0x01#8) ∨
  ((opcField f.header ∈ [0x02#8, 0x03#8, 0x10#8, 0x11#8, 0x12#8] ∨ (opcField f.header = 0x13#8 ∧ pField f.header = 0#1)) ∧
    f.payload ≠ []) ∨
  (opcField f.header = 0x13#8 ∧ pField f.header = 1#1 ∧ f.payload.length ≠ 1) ∨
  (opcField f.header = 0x01#8 ∧ ¬ seedShape (cntField f.header).toNat f.payload)

/-- A number of units of `2^-1074` that a binary64 significand can hold (00_scope.md R10). -/
def isF64 (v : Nat) : Prop := ∃ m j, m < 2 ^ 53 ∧ v = m * 2 ^ j

/-- How far apart two numbers are. -/
def apart (a b : Nat) : Nat := (a - b) + (b - a)

end Sys2Proof.Machine
end

