-- ==== Sys2Proof/WellFormed.lean ====
section
/-! DEFINITION. Which commands a frame can carry: the ranges of the operands (30_encoding.md R67). -/

namespace Sys2Proof

/-- Every element's length fits its length word: `L_j` is 0 to `2^32 - 1` (30_encoding.md R65, R67). -/
def lengthsFit (q : SeedSeq) : Bool := q.all fun e => decide (e.length < 2 ^ 32)

/-- The number of elements fits CNT, 0 to 65535 (30_encoding.md R67). -/
def countFits (q : SeedSeq) : Bool := decide (q.length < 2 ^ 16)

/-- The count is a 32-bit two's complement integer (30_encoding.md R64). -/
def cycleCountFits (n : Int) : Bool := decide (-2 ^ 31 ≤ n) && decide (n < 2 ^ 31)

/-- The operands of a command are values its encoding admits (30_encoding.md R64 to R67). -/
def Instr.wellFormed : Instr → Bool
  | .seed q => countFits q && lengthsFit q
  | .seedr => true
  | .restart => true
  | .random => true
  | .fract53 => true
  | .int32 => true
  | .cycle n => cycleCountFits n
  | .cycled => true

end Sys2Proof
end

