-- ==== Sys2Proof/Certificates/Slice0/Obligations.lean ====
section
/-! DEFINITION. The statements for the provers. `s.withWords x` is the state s with the integer words and carry x in S and C
(10_state.md R33); every state the spec allows after seeding is of that form (WordsInRangeAreIntegers). A rule the spec
marks [derived] is called its inference below, and every statement that rests on one has basis derived. -/

open Sys2Proof Sys2Proof.Machine

/-! ### Encoding -/

/-- Decoding an encoded well-formed command gives the command back, every operand at every value (R63 to R69). -/
def Obligations.DecodeEncodeRoundTrip : Prop :=
  ∀ i : Instr, i.wellFormed = true → decode (encode i) = .ok i

/-- A frame that decodes is the encoding of its command, whose operands are in range: one frame per command, no bit
dropped (R67, R69, R71). -/
def Obligations.EncodeDecodeRoundTrip : Prop :=
  ∀ (f : Frame) (i : Instr), decode f = .ok i → i.wellFormed = true ∧ encode i = f

/-- R70: the exhaustive list of illegal frames; every frame on it faults, every other is a command that runs. -/
def Obligations.IllegalFramesAreThoseListed : Prop :=
  ∀ (s : State) (f : Frame) (rest : List Input), s.inputs = .frame f :: rest →
    (illegalShape f → step s = .next { s with inputs := rest, rsp := s.rsp ++ [⟨1#32, []⟩] }) ∧
    (¬ illegalShape f → ∃ i : Instr, i.wellFormed = true ∧ decode f = .ok i ∧
      step s = exec i { s with inputs := rest })

/-- One frame of every command, written out from R62 to R66, decodes to it. -/
def Obligations.WrittenFramesDecode : Prop :=
  decode ⟨0x01000003#32, [2#32, 0x68#32, 0x69#32, 0#32, 2#32, 0#32, 0x001FFFFF#32]⟩ =
      .ok (.seed [[104#21, 105#21], [], [0#21, 2097151#21]]) ∧
    decode ⟨0x02000000#32, []⟩ = .ok .seedr ∧
    decode ⟨0x03000000#32, []⟩ = .ok .restart ∧
    decode ⟨0x10000000#32, []⟩ = .ok .random ∧
    decode ⟨0x11000000#32, []⟩ = .ok .fract53 ∧
    decode ⟨0x12000000#32, []⟩ = .ok .int32 ∧
    decode ⟨0x13010000#32, [0xFFFFFFFB#32]⟩ = .ok (.cycle (-5)) ∧
    decode ⟨0x13010000#32, [0x80000000#32]⟩ = .ok (.cycle (-2147483648)) ∧
    decode ⟨0x13000000#32, []⟩ = .ok .cycled

/-- Lines of assembly text stand for the commands R75 and R76 give them; `seed` with no operand is rejected. -/
def Obligations.AssemblyLinesStandForCommands : Prop :=
  assembleLine .codePoint ['s', 'e', 'e', 'd', ' ', '"', 'a', '"', ',', ' ', '"', 'b', '"'] =
      .command (.seed [[97#21], [98#21]]) ∧
    assembleLine .codePoint ['s', 'e', 'e', 'd', ' ', '[', ']'] = .command (.seed []) ∧
    assembleLine .codePoint ['s', 'e', 'e', 'd', ' ', '"', '"'] = .command (.seed [[]]) ∧
    assembleLine .codePoint ['s', 'e', 'e', 'd'] = .rejected ∧
    assembleLine .codePoint ['c', 'y', 'c', 'l', 'e', ' ', '-', '5', ' ', ';', 'x'] = .command (.cycle (-5)) ∧
    assembleLine .codePoint ['c', 'y', 'c', 'l', 'e'] = .command .cycled ∧
    assembleLine .codePoint ['r', 'a', 'n', 'd', 'o', 'm'] = .command .random

/-- The two readings of TEXT_UNIT give the same codes for text of code points below 0x10000 (R7, R77; a Lean character
is never a surrogate). -/
def Obligations.TextUnitsAgreeBelowSurrogates : Prop :=
  ∀ cs : List Char, (∀ ch ∈ cs, ch.toNat < 0x10000) → textCodes .codePoint cs = textCodes .utf16 cs

/-! ### The step -/

/-- A step with a frame next runs the command the frame decodes to, on the state with that frame taken off the port
(R60). -/
def Obligations.StepRunsTheDecodedCommand : Prop :=
  ∀ (s : State) (f : Frame) (rest : List Input) (i : Instr), s.inputs = .frame f :: rest → decode f = .ok i →
    step s = exec i { s with inputs := rest }

/-- The instruction an opcode-table word stands for is what the next step runs, on the state as it was (the model's
`withFetchWord`, assumptions 3 and 14). -/
def Obligations.TableWordRunsNext : Prop :=
  ∀ (s : State) (nbits w : Nat) (i : Instr), decodeTableWord nbits w = some i →
    step (s.withFetchWord nbits w) = exec i s

/-- R162: any frame that fails Decode, in any state, answers [0x00000001], is consumed whole and changes nothing; the
rule's eight examples fail Decode. -/
def Obligations.MalformedFrameAnswersIllegalCommand : Prop :=
  (∀ (s : State) (f : Frame) (rest : List Input) (e : DecodeError), s.inputs = .frame f :: rest → decode f = .error e →
    step s = .next { s with inputs := rest, rsp := s.rsp ++ [⟨1#32, []⟩] }) ∧
  (∀ f ∈ [(⟨0x00000000#32, []⟩ : Frame), ⟨0xFF000000#32, []⟩, ⟨0x10000001#32, []⟩, ⟨0x10000000#32, [0#32]⟩,
      ⟨0x13010000#32, []⟩, ⟨0x01000001#32, [1#32, 0x00200000#32]⟩, ⟨0x01000001#32, []⟩, ⟨0x02010000#32, []⟩],
    ∃ e : DecodeError, decode f = .error e)

/-- While HOST does nothing the block holds its state (R175, R190). -/
def Obligations.IdleBlockHoldsItsState : Prop :=
  ∀ s : State, s.inputs = [] → step s = .next s

/-- The RESET input: SEEDED = 0, no response, no entropy read; the parameters and the frames still to come stay (R190).
What the other registers hold is free and no clause names it (assumption 2). -/
def Obligations.ResetInputClearsSeeded : Prop :=
  ∀ (s : State) (rest : List Input), s.inputs = .reset :: rest →
    ∃ t : State, step s = .next t ∧ t.seeded = false ∧ t.inputs = rest ∧ t.rsp = s.rsp ∧ t.params = s.params ∧
      t.ent = s.ent ∧ t.entFree = s.entFree

/-- The reset state is unseeded (R32) and meets the model's invariant; its other registers' values are the model's
(assumption 1), and neither clause rests on them. -/
def Obligations.ResetMeetsTheInvariant : Prop :=
  State.reset.seeded = false ∧ State.reset.inv = true

/-- Every command and every step answers a next state: there is no state from which the block cannot go on (R13, R201).
-/
def Obligations.EveryStepAnswersNext : Prop :=
  (∀ (i : Instr) (s : State), ∃ t : State, exec i s = .next t) ∧ ∀ s : State, ∃ t : State, step s = .next t

/-- The invariant (the spec's inferences R22 and R23, and the capacity of R164) is kept by every step, from any state
that meets it. -/
def Obligations.EveryStepKeepsTheInvariant : Prop :=
  ∀ s t : State, s.inv = true → step s = .next t → t.inv = true

/-- A step takes one thing off the port, adds to RSP only, and never changes the parameters (R7, R49; the port as a list
is the model's, assumptions 3 and 4). -/
def Obligations.StepConsumesOneInput : Prop :=
  ∀ s t : State, step s = .next t →
    t.inputs = s.inputs.tail ∧ t.params = s.params ∧ ∃ rs : List Frame, t.rsp = s.rsp ++ rs ∧ rs.length ≤ 1

/-- R191: what the registers hold while SEEDED = 0 is never seen (free values after RESET, assumption 2). Two blocks
that differ only there give the same responses for ever, and are equal once seeded. -/
def Obligations.UnspecifiedContentIsNeverSeen : Prop :=
  ∀ (k : Nat) (s t s' : State), sameButUnspecified s t → Sys2Proof.core.run k s = .next s' →
    ∃ t' : State, Sys2Proof.core.run k t = .next t' ∧ sameButUnspecified s' t'

/-! ### Responses and faults -/

/-- R73: which of the four status codes answers a frame, with the causes of R162 to R164. -/
def Obligations.StatusCodeTellsTheCause : Prop :=
  ∀ (s t : State) (f : Frame) (rest : List Input), s.inputs = .frame f :: rest → step s = .next t →
    ∃ r : Frame, t.rsp = s.rsp ++ [r] ∧
      (r.header.extractLsb' 0 8 = 0#8 ∨ r.header.extractLsb' 0 8 = 1#8 ∨ r.header.extractLsb' 0 8 = 2#8 ∨
        r.header.extractLsb' 0 8 = 3#8) ∧
      (r.header.extractLsb' 0 8 = 1#8 ↔ ∃ e : DecodeError, decode f = .error e) ∧
      (r.header.extractLsb' 0 8 = 2#8 ↔ s.seeded = false ∧ ∃ i : Instr, decode f = .ok i ∧ needsSeeded i = true) ∧
      (r.header.extractLsb' 0 8 = 3#8 ↔ ∃ q : SeedSeq, decode f = .ok (.seed q) ∧
        (s.params.seedMaxElems < q.length ∨ ∃ m : Nat, s.params.seedMaxCodes = some m ∧ m < totalCodes q))

/-- One response per command frame: `[ST]` or `[ST, RES_LO, RES_HI]`, with V = 1 exactly for an OK answer of a command
that returns a value, and ST[31:9] = 0 (R60, R72). -/
def Obligations.OneResponsePerFrame : Prop :=
  ∀ (s t : State) (f : Frame) (rest : List Input), s.inputs = .frame f :: rest → step s = .next t →
    ∃ r : Frame, t.rsp = s.rsp ++ [r] ∧ r.header.extractLsb' 9 23 = 0#23 ∧
      (r.header.extractLsb' 8 1 = 1#1 ↔ r.header.extractLsb' 0 8 = 0#8 ∧
        ∃ i : Instr, decode f = .ok i ∧ returnsValue i = true) ∧
      r.payload.length = (if r.header.extractLsb' 8 1 = 1#1 then 2 else 0)

/-- R165: a fault answers its code in one word and changes nothing else, reads no entropy, and the next frame follows.
-/
def Obligations.FaultsChangeNothing : Prop :=
  ∀ (s t : State) (f r : Frame) (rest : List Input), s.inputs = .frame f :: rest → step s = .next t →
    t.rsp = s.rsp ++ [r] → r.header.extractLsb' 0 8 ≠ 0#8 →
    r.payload = [] ∧ (r.header = 1#32 ∨ r.header = 2#32 ∨ r.header = 3#32) ∧
      t = { s with inputs := rest, rsp := s.rsp ++ [r] }

/-- R163: Unseeded is what the six commands answer while SEEDED = 0, is never raised by SEED or SEEDR, and never again
once a seed was taken until the next RESET. -/
def Obligations.UnseededFault : Prop :=
  (∀ (i : Instr) (s : State), needsSeeded i = true → s.seeded = false →
    exec i s = .next { s with rsp := s.rsp ++ [⟨2#32, []⟩] }) ∧
  (∀ (i : Instr) (s t : State) (r : Frame), needsSeeded i = false ∨ s.seeded = true → exec i s = .next t →
    t.rsp = s.rsp ++ [r] → r.header.extractLsb' 0 8 ≠ 2#8) ∧
  (∀ s t : State, s.seeded = true → s.inputs.head? ≠ some .reset → step s = .next t → t.seeded = true)

/-- R164: SeedOverflow is what SEED answers above either capacity; the old seed, state and SEEDED are kept; no other
command raises it; with the default parameters no frame can cause it. -/
def Obligations.SeedOverflowFault : Prop :=
  (∀ (q : SeedSeq) (s : State),
    (s.params.seedMaxElems < q.length ∨ ∃ m : Nat, s.params.seedMaxCodes = some m ∧ m < totalCodes q) →
    exec (.seed q) s = .next { s with rsp := s.rsp ++ [⟨3#32, []⟩] }) ∧
  (∀ (i : Instr) (s t : State) (r : Frame), (∀ q : SeedSeq, i ≠ .seed q) → exec i s = .next t →
    t.rsp = s.rsp ++ [r] → r.header.extractLsb' 0 8 ≠ 3#8) ∧
  (∀ (f : Frame) (q : SeedSeq), decode f = .ok (.seed q) → fitsStore Params.default q = true)

/-- R192: before the first SEED or SEEDR every frame is answered [1] if it is malformed and [2] if not, and the block
stays as it is, however many frames come. -/
def Obligations.BeforeSeedingOnlyFaults : Prop :=
  ∀ (s : State) (fs : List Frame), s.seeded = false → s.inputs = fs.map .frame →
    (∀ f ∈ fs, ∀ i : Instr, decode f = .ok i → needsSeeded i = true) →
    Sys2Proof.core.run fs.length s = .next { s with
      inputs := []
      rsp := s.rsp ++ fs.map fun f => match decode f with
        | .error _ => ⟨1#32, []⟩
        | .ok _ => ⟨2#32, []⟩ }

/-! ### The floating-point primitives -/

/-- R10: RNE53 gives a binary64 value nearest the real `p * 2^(e - 1074 - low)`, and on a tie the one whose significand is
even. Sizes are counted in units of `2^-(1074 + low)`; the exponent has no upper limit here (assumption 13). -/
def Obligations.RoundingIsToNearestEven : Prop :=
  ∀ p e low : Nat,
    isF64 (funits (rne53 p e low)) ∧
    ∀ y : Nat, isF64 y →
      apart (funits (rne53 p e low) * 2 ^ low) (p * 2 ^ e) ≤ apart (y * 2 ^ low) (p * 2 ^ e) ∧
      (y ≠ funits (rne53 p e low) →
        apart (funits (rne53 p e low) * 2 ^ low) (p * 2 ^ e) = apart (y * 2 ^ low) (p * 2 ^ e) →
        funits (rne53 p e low) / 2 ^ (bitLen (funits (rne53 p e low)) - 53) % 2 = 0)

/-- R10: a finite value and its pattern stand for each other. -/
def Obligations.PatternsRoundTrip : Prop :=
  (∀ m j : Nat, m < 2 ^ 53 → m * 2 ^ j < 2 ^ 2098 → funits (valueOf (bits64 ⟨m, j⟩)) = m * 2 ^ j) ∧
  (∀ w : BitVec 64, w.toNat < 2047 * 2 ^ 52 → bits64 (valueOf w) = w)

/-- The spec's inferences R22 and R33: u32 and the state words in range correspond one to one, and 0 is +0. -/
def Obligations.FractionsAreIntegers : Prop :=
  (∀ x : BitVec 32, intView (fracWord x) = x) ∧
  (∀ w : BitVec 64, wordOk w = true ↔ ∃ x : BitVec 32, w = fracWord x) ∧ fracWord 0#32 = 0#64

/-- The spec's inferences R22 and R33, from a reading of R22 that names no integer form: a word is in range exactly when it
is the pattern of a finite value equal to `x * 2^-32` for a u32 x, and a state whose three words are such values of x0, x1,
x2 is the state of those integers, which are its integer view. -/
def Obligations.WordsInRangeAreIntegers : Prop :=
  (∀ w : BitVec 64, wordOk w = true ↔ ∃ x : BitVec 32, isFraction w x) ∧
  ∀ (s : State) (x0 x1 x2 : BitVec 32), isFraction s.s0 x0 → isFraction s.s1 x1 → isFraction s.s2 x2 →
    s = s.withWords ⟨x0, x1, x2, s.c⟩ ∧ intView s.s0 = x0 ∧ intView s.s1 = x1 ∧ intView s.s2 = x2

/-! ### Mash and Init -/

/-- The spec's inference R96: one floating-point round and one round on natural numbers leave the same N. -/
def Obligations.MashRoundOnIntegers : Prop :=
  ∀ (n : BitVec 32) (k : Code), absorb n k = absorbNat n k

/-- The spec's inference R93, facts (a) to (g) and (j), of the values of one round. -/
def Obligations.MashRoundFacts : Prop :=
  ∀ n1 : Nat, n1 < 2 ^ 32 →
    let h2 := fmul multK (fOfNat n1)
    let n3 := ffloor h2
    let h4 := fsub h2 (fOfNat n3)
    let h5 := fmul h4 (fOfNat n3)
    let n6 := ffloor h5
    let h7 := fsub h5 (fOfNat n6)
    let g8 := fmul h7 (fOfNat (2 ^ 32))
    let s8 := fadd (fOfNat n6) g8
    (n3 ≤ 108216136 ∧ u32 h2 = n3) ∧
    (2 ^ 1037 ∣ funits h2 ∧ 2 ^ 1037 ∣ funits h4 ∧ 2 ^ 1037 ∣ funits h5 ∧ 2 ^ 1037 ∣ funits h7 ∧
      2 ^ 1069 ∣ funits g8 ∧ 2 ^ 1069 ∣ funits s8) ∧
    (funits h4 = funits h2 - n3 * 2 ^ 1074 ∧ funits h4 < 2 ^ 1074) ∧
    (funits h5 ≤ n3 * 2 ^ 1074 ∧ n6 ≤ n3 ∧ u32 h5 = n6) ∧
    (funits h7 = funits h5 - n6 * 2 ^ 1074 ∧ funits h7 < 2 ^ 1074) ∧
    (funits g8 = funits h7 * 2 ^ 32 ∧ ffloor g8 < 2 ^ 32) ∧
    (funits s8 = n6 * 2 ^ 1074 + funits g8 ∧ ffloor s8 < 2 ^ 32 + 2 ^ 27) ∧
    (n1 ≤ 39 → u32 s8 = 0)

/-- The spec's inference R95: what Mash returns is the fraction `N * 2^-32` of the accumulator it leaves; and, by the
spec's inference R96, that accumulator is the one the rounds on natural numbers leave. -/
def Obligations.MashReturnsItsAccumulator : Prop :=
  ∀ (d : Text) (n : BitVec 32), bits64 (mash d n).1 = fracWord (mash d n).2 ∧ (mash d n).2 = mashNat d n

/-- The spec's inference R98: the empty text runs no round; its three calls in Init all return the current `N * 2^-32`.
-/
def Obligations.EmptyElementSubtractsN : Prop :=
  ∀ (x0 x1 x2 n : BitVec 32),
    let a : InitWork := ⟨fmul (fOfNat x0.toNat) twoNeg32, fmul (fOfNat x1.toNat) twoNeg32,
      fmul (fOfNat x2.toNat) twoNeg32, n⟩
    bits64 (initElement a []).w0 = fracWord (x0 - n) ∧ bits64 (initElement a []).w1 = fracWord (x1 - n) ∧
      bits64 (initElement a []).w2 = fracWord (x2 - n) ∧ (initElement a []).n = n

/-- The spec's inference R116, over its inference R96: Init and InitInt give the same words and the same accumulator.
That N holds the last accumulator after Init is the model's reading (assumption 12). -/
def Obligations.InitOnIntegers : Prop :=
  ∀ (q : SeedSeq) (s : State),
    init q s = { s.withWords (seedWords q) with n := (initNat q).n }

/-- The spec's inference R117: the baseline, the state `seed []` gives from any state. -/
def Obligations.BaselineSeed : Prop :=
  ∀ s : State, exec (.seed []) s = .next { s with
    s0 := 0x3FEBA063FA400000#64, s1 := 0x3FC3399F2E800000#64, s2 := 0x3FED5DC288600000#64, c := 1#21,
    n := 3941471299#32, seedStore := [], seeded := true, rsp := s.rsp ++ [⟨0#32, []⟩] }

/-- R114: Dec(w) is the shortest decimal numeral of w. -/
def Obligations.EntropyWordText : Prop :=
  (∀ w : Word,
    (decText w).foldl (fun a d => a * 10 + (d.toNat - 48)) 0 = w.toNat ∧
    1 ≤ (decText w).length ∧ (decText w).length ≤ 10 ∧
    (∀ d ∈ decText w, 48 ≤ d.toNat ∧ d.toNat ≤ 57) ∧
    ((decText w).head? = some 48#21 → w = 0#32 ∧ decText w = [48#21])) ∧
  decText 0#32 = [48#21] ∧ decText 1#32 = [49#21] ∧
  decText 305419896#32 = [51#21, 48#21, 53#21, 52#21, 49#21, 57#21, 56#21, 57#21, 54#21] ∧
  decText 4294967295#32 = [52#21, 50#21, 57#21, 52#21, 57#21, 54#21, 55#21, 50#21, 57#21, 53#21]

/-! ### The seeding commands -/

/-- SEED within the capacities: stores q, leaves InitInt's words, C = 1 and its accumulator, sets SEEDED, answers OK,
and nothing else changes (R111, with the spec's inferences R116 and R96; that N keeps the last accumulator is the
model's reading, assumption 12). -/
def Obligations.SeedResult : Prop :=
  ∀ (q : SeedSeq) (s : State), q.length ≤ s.params.seedMaxElems →
    (∀ m : Nat, s.params.seedMaxCodes = some m → totalCodes q ≤ m) →
    exec (.seed q) s = .next { s.withWords (seedWords q) with
      n := (initNat q).n, seedStore := q, seeded := true, rsp := s.rsp ++ [⟨0#32, []⟩] }

/-- SEEDR in every state: exactly three entropy words, in order, whose decimal texts are stored and seeded as SEED
would; the words are the listed answers and, after them, free (R112, R54, the spec's inferences R116 and R96). That the
answers stand in State is the model's choice (assumption 5), and that N keeps the last accumulator its reading
(assumption 12). -/
def Obligations.SeedrResult : Prop :=
  ∀ s : State,
    let ws := s.ent ++ (List.range 3).map fun k => Config.entropyWord (s.entFree + k)
    let q : SeedSeq := [decText (ws.getD 0 0#32), decText (ws.getD 1 0#32), decText (ws.getD 2 0#32)]
    exec .seedr s = .next { s.withWords (seedWords q) with
      n := (initNat q).n, seedStore := q, seeded := true, rsp := s.rsp ++ [⟨0#32, []⟩],
      ent := s.ent.drop 3, entFree := s.entFree + (3 - s.ent.length) }

/-- RESTART when seeded: the words and accumulator of the stored sequence, everything else as it was (R113, with the
spec's inferences R116 and R96; that N keeps the last accumulator is the model's reading, assumption 12). -/
def Obligations.RestartResult : Prop :=
  ∀ s : State, s.seeded = true →
    exec .restart s = .next { s.withWords (seedWords s.seedStore) with
      n := (initNat s.seedStore).n, rsp := s.rsp ++ [⟨0#32, []⟩] }

/-- The spec's inference R118: two blocks given the same SEED, in whatever states they were, answer every later sequence
of drawing and RESTART commands alike and stay in the same generator state (N compared too, the model's reading,
assumption 12). -/
def Obligations.SameSeedSameStream : Prop :=
  ∀ (q : SeedSeq) (s t : State) (cmds : List Instr), fitsStore s.params q = true → fitsStore t.params q = true →
    (∀ i ∈ cmds, needsSeeded i = true) →
    ∃ (s' t' : State) (rs : List Frame),
      execAll (.seed q :: cmds) s = .next s' ∧ execAll (.seed q :: cmds) t = .next t' ∧
      s'.rsp = s.rsp ++ rs ∧ t'.rsp = t.rsp ++ rs ∧ sameBlock s' t'

/-- R113, with the spec's inference R118: RESTART after a SEED and any drawing and RESTART commands brings back the
state right after the SEED, so the stream repeats from its beginning (N compared too, the model's reading, assumption
12). -/
def Obligations.RestartReplaysTheSeed : Prop :=
  ∀ (q : SeedSeq) (s : State) (cmds : List Instr), fitsStore s.params q = true →
    (∀ i ∈ cmds, needsSeeded i = true) →
    ∃ t u : State, execAll (.seed q :: (cmds ++ [.restart])) s = .next t ∧ execAll [.seed q] s = .next u ∧
      t = { u with rsp := t.rsp }

/-! ### The drawing commands -/

/-- The spec's inference R132: Draw and DrawInt agree, for every three u32 words and every 21-bit carry. -/
def Obligations.DrawOnIntegers : Prop :=
  ∀ (s : State) (x : IntWords), draw (s.withWords x) = s.withWords x.draw

/-- The spec's inference R135: the worked trace, six draws from the state after `seed "test"`: new C, new X[2] and the
pattern returned. -/
def Obligations.WorkedTraceOfDraws : Prop :=
  let x : IntWords := ⟨2099335663#32, 4110573609#32, 1758352871#32, 1#21⟩
  seedWords [[116#21, 101#21, 115#21, 116#21]] = x ∧
  ((List.range 6).map fun k =>
      let y := IntWords.drawTimes (k + 1) x
      (y.c.toNat, y.x2.toNat, (fracWord y.x2).toNat)) =
    [(1022371, 2337442842, 0x3FE16A5183400000), (2001839, 3037120178, 0x3FE6A0D8D6400000),
      (856313, 3112607760, 0x3FE730D402000000), (1138329, 782365967, 0x3FC750FA87800000),
      (1479070, 1734635351, 0x3FD9D91BD5C00000), (1515832, 2917767438, 0x3FE5BD3321C00000)]

/-- RANDOM when seeded: one DrawInt, whose new X[2] is returned as the fraction `X[2] * 2^-32`, low half first; nothing
else changes (R131, with the spec's inference R132). -/
def Obligations.RandomResult : Prop :=
  ∀ (s : State) (x : IntWords), s.seeded = true →
    exec .random (s.withWords x) = .next { s.withWords x.draw with
      rsp := s.rsp ++ [⟨0x100#32, [(fracWord x.draw.x2).extractLsb' 0 32, (fracWord x.draw.x2).extractLsb' 32 32]⟩] }

/-- FRACT53 when seeded: two DrawInts in order, and `W * 2^-53` with `W = {xa[31:0], xb[31:11]}`, the first draw the
high-order term; nothing else changes (R140, with the spec's inference R141). -/
def Obligations.Fract53Result : Prop :=
  ∀ (s : State) (x : IntWords), s.seeded = true →
    let res := fract53Word (fract53Nat x.draw.x2 x.draw.draw.x2)
    exec .fract53 (s.withWords x) = .next { s.withWords x.draw.draw with
      rsp := s.rsp ++ [⟨0x100#32, [res.extractLsb' 0 32, res.extractLsb' 32 32]⟩] }

/-- INT32 when seeded: one DrawInt, and the integer X[2] as a binary64 number; nothing else changes (R142, with the
spec's inference R143). -/
def Obligations.Int32Result : Prop :=
  ∀ (s : State) (x : IntWords), s.seeded = true →
    let res := int32Word x.draw.x2
    exec .int32 (s.withWords x) = .next { s.withWords x.draw with
      rsp := s.rsp ++ [⟨0x100#32, [res.extractLsb' 0 32, res.extractLsb' 32 32]⟩] }

/-- CYCLE n and CYCLED when seeded: `max(n, 1)` DrawInts, respectively one; no value; nothing else changes (R144, R145,
with the spec's inference R132). -/
def Obligations.CycleResult : Prop :=
  ∀ (s : State) (x : IntWords), s.seeded = true →
    (∀ n : Int, exec (.cycle n) (s.withWords x) = .next { s.withWords (x.drawTimes (max n 1).toNat) with
      rsp := s.rsp ++ [⟨0#32, []⟩] }) ∧
    exec .cycled (s.withWords x) = .next { s.withWords x.draw with rsp := s.rsp ++ [⟨0#32, []⟩] }

/-- In every seeded state, whatever its words hold, a drawing command completes with STATUS OK and touches S, C and RSP
only (R130). -/
def Obligations.DrawingTouchesWordsAndCarryOnly : Prop :=
  ∀ (i : Instr) (s : State), isDrawing i = true → s.seeded = true →
    ∃ (t : State) (r : Frame), exec i s = .next t ∧ r.header.extractLsb' 0 8 = 0#8 ∧
      t = { s with s0 := t.s0, s1 := t.s1, s2 := t.s2, c := t.c, rsp := s.rsp ++ [r] }

/-- What each command may write of what Draw does not: only SEED and SEEDR write the seed store and SEEDED, only they
and RESTART write N, only SEEDR reads ENT (R25, R29, R43, R54). -/
def Obligations.OnlySeedingWritesTheStore : Prop :=
  ∀ (i : Instr) (s t : State), exec i s = .next t →
    t.params = s.params ∧ t.inputs = s.inputs ∧ t.resets = s.resets ∧
    (i ≠ .seedr → t.ent = s.ent ∧ t.entFree = s.entFree) ∧
    (needsSeeded i = true → t.seeded = s.seeded ∧ t.seedStore = s.seedStore ∧
      ∀ j k : Nat, memRead j k t = memRead j k s) ∧
    (isDrawing i = true → t.n = s.n)

/-- The spec's inference R146: CYCLE k is k RANDOMs, any n below 1 is one RANDOM, CYCLEs add up, FRACT53 advances as
CYCLE 2 and INT32 as CYCLE 1; all up to the responses. -/
def Obligations.CycleIsRepeatedDraws : Prop :=
  ∀ s : State, s.seeded = true →
    (∀ k : Nat, 1 ≤ k → k < 2 ^ 31 → ∃ t u : State, exec (.cycle k) s = .next t ∧
      execAll (List.replicate k .random) s = .next u ∧ t = { u with rsp := t.rsp }) ∧
    (∀ n : Int, n < 1 → ∃ t u : State, exec (.cycle n) s = .next t ∧ exec .random s = .next u ∧
      t = { u with rsp := t.rsp }) ∧
    (∀ j k : Nat, 1 ≤ j → 1 ≤ k → j + k < 2 ^ 31 → ∃ t u : State, execAll [.cycle j, .cycle k] s = .next t ∧
      exec (.cycle (j + k)) s = .next u ∧ t = { u with rsp := t.rsp }) ∧
    (∃ t u : State, exec .fract53 s = .next t ∧ exec (.cycle 2) s = .next u ∧ t = { u with rsp := t.rsp }) ∧
    (∃ t u : State, exec .int32 s = .next t ∧ exec (.cycle 1) s = .next u ∧ t = { u with rsp := t.rsp })

/-- CYCLED, and CYCLE with any count of 1 or below, are the same command: same state, same response (R145). -/
def Obligations.SmallCyclesAreCycled : Prop :=
  ∀ (s : State) (n : Int), n ≤ 1 → exec (.cycle n) s = exec .cycled s

/-- The spec's inference R147, and R131, of the responses: from one seeded state, RANDOM answers the pattern of
`X * 2^-32`, INT32 that of the integer X for the same X, and FRACT53 that of `W * 2^-53` whose W, rounded down to a multiple
of `2^21`, is RANDOM's X; RANDOM's and FRACT53's patterns are below that of 1, INT32's below that of `2^32`, and RANDOM's
bits 20:0 are 0. -/
def Obligations.ReturnedValuesAreInRange : Prop :=
  ∀ (s : State) (x : IntWords), s.seeded = true →
    ∃ (r f i : BitVec 64) (X W : Nat),
      answeredValue (exec .random (s.withWords x)) = some r ∧
      answeredValue (exec .fract53 (s.withWords x)) = some f ∧
      answeredValue (exec .int32 (s.withWords x)) = some i ∧
      X < 2 ^ 32 ∧ W < 2 ^ 53 ∧ W / 2 ^ 21 = X ∧
      (r.toNat < 0x3FF0000000000000 ∧ r.toNat % 2 ^ 21 = 0 ∧ funits (valueOf r) = X * 2 ^ 1042) ∧
      (f.toNat < 0x3FF0000000000000 ∧ funits (valueOf f) = W * 2 ^ 1021) ∧
      (i.toNat < 0x41F0000000000000 ∧ funits (valueOf i) = X * 2 ^ 1074)

/-- The spec's inference R134: on the states with `C < A` DrawInt is a bijection. -/
def Obligations.DrawIsABijection : Prop :=
  (∀ x : IntWords, carryOk x.c = true → carryOk x.draw.c = true) ∧
  ∀ y : IntWords, carryOk y.c = true → ∃! x : IntWords, carryOk x.c = true ∧ x.draw = y

/-- The spec's inference R134: DrawInt has exactly two fixed points; no sequence of draws after any InitInt meets one; and
no run of the machine does: in whatever seeded state a run that began unseeded ends, RANDOM changes the words or the
carry. -/
def Obligations.FixedPointsAreNeverReached : Prop :=
  (∀ x : IntWords, carryOk x.c = true →
    (x.draw = x ↔ x = ⟨0#32, 0#32, 0#32, 0#21⟩ ∨
      x = ⟨0xFFFFFFFF#32, 0xFFFFFFFF#32, 0xFFFFFFFF#32, 2091638#21⟩)) ∧
  (∀ (q : SeedSeq) (k : Nat), (IntWords.drawTimes k (seedWords q)).draw ≠ IntWords.drawTimes k (seedWords q)) ∧
  ∀ (k : Nat) (s t : State), s.seeded = false → Sys2Proof.core.run k s = .next t → t.seeded = true →
    ∃ u : State, exec .random t = .next u ∧ (u.s0, u.s1, u.s2, u.c) ≠ (t.s0, t.s1, t.s2, t.c)

/-- R202, which rests on the spec's inference R134: three consecutive draws give the words outright and a fourth the
carry: two states that return the same four values were the same state. -/
def Obligations.FourDrawsRevealTheState : Prop :=
  ∀ x y : IntWords, carryOk x.c = true → carryOk y.c = true →
    (∀ k < 4, (IntWords.drawTimes (k + 1) x).x2 = (IntWords.drawTimes (k + 1) y).x2) → x = y
end

