-- ==== Sys2Proof/Laws/State.lean ====
section
/-! SUPPORT. One lemma per field of State per update, so that no later proof unfolds a record update. -/

namespace Sys2Proof.Machine

@[simp] theorem respond_s0 (f : Frame) (s : State) : (respond f s).s0 = s.s0 := rfl
@[simp] theorem respond_s1 (f : Frame) (s : State) : (respond f s).s1 = s.s1 := rfl
@[simp] theorem respond_s2 (f : Frame) (s : State) : (respond f s).s2 = s.s2 := rfl
@[simp] theorem respond_c (f : Frame) (s : State) : (respond f s).c = s.c := rfl
@[simp] theorem respond_n (f : Frame) (s : State) : (respond f s).n = s.n := rfl
@[simp] theorem respond_seedStore (f : Frame) (s : State) : (respond f s).seedStore = s.seedStore := rfl
@[simp] theorem respond_seeded (f : Frame) (s : State) : (respond f s).seeded = s.seeded := rfl
@[simp] theorem respond_params (f : Frame) (s : State) : (respond f s).params = s.params := rfl
@[simp] theorem respond_inputs (f : Frame) (s : State) : (respond f s).inputs = s.inputs := rfl
@[simp] theorem respond_rsp (f : Frame) (s : State) : (respond f s).rsp = s.rsp ++ [f] := rfl
@[simp] theorem respond_ent (f : Frame) (s : State) : (respond f s).ent = s.ent := rfl
@[simp] theorem respond_entFree (f : Frame) (s : State) : (respond f s).entFree = s.entFree := rfl
@[simp] theorem respond_resets (f : Frame) (s : State) : (respond f s).resets = s.resets := rfl

@[simp] theorem setSeeded_s0 (s : State) : (setSeeded s).s0 = s.s0 := rfl
@[simp] theorem setSeeded_s1 (s : State) : (setSeeded s).s1 = s.s1 := rfl
@[simp] theorem setSeeded_s2 (s : State) : (setSeeded s).s2 = s.s2 := rfl
@[simp] theorem setSeeded_c (s : State) : (setSeeded s).c = s.c := rfl
@[simp] theorem setSeeded_n (s : State) : (setSeeded s).n = s.n := rfl
@[simp] theorem setSeeded_seedStore (s : State) : (setSeeded s).seedStore = s.seedStore := rfl
@[simp] theorem setSeeded_seeded (s : State) : (setSeeded s).seeded = true := rfl
@[simp] theorem setSeeded_params (s : State) : (setSeeded s).params = s.params := rfl
@[simp] theorem setSeeded_inputs (s : State) : (setSeeded s).inputs = s.inputs := rfl
@[simp] theorem setSeeded_rsp (s : State) : (setSeeded s).rsp = s.rsp := rfl
@[simp] theorem setSeeded_ent (s : State) : (setSeeded s).ent = s.ent := rfl
@[simp] theorem setSeeded_entFree (s : State) : (setSeeded s).entFree = s.entFree := rfl
@[simp] theorem setSeeded_resets (s : State) : (setSeeded s).resets = s.resets := rfl

@[simp] theorem seedReplace_s0 (q : SeedSeq) (s : State) : (seedReplace q s).s0 = s.s0 := rfl
@[simp] theorem seedReplace_s1 (q : SeedSeq) (s : State) : (seedReplace q s).s1 = s.s1 := rfl
@[simp] theorem seedReplace_s2 (q : SeedSeq) (s : State) : (seedReplace q s).s2 = s.s2 := rfl
@[simp] theorem seedReplace_c (q : SeedSeq) (s : State) : (seedReplace q s).c = s.c := rfl
@[simp] theorem seedReplace_n (q : SeedSeq) (s : State) : (seedReplace q s).n = s.n := rfl
@[simp] theorem seedReplace_seedStore (q : SeedSeq) (s : State) : (seedReplace q s).seedStore = q := rfl
@[simp] theorem seedReplace_seeded (q : SeedSeq) (s : State) : (seedReplace q s).seeded = s.seeded := rfl
@[simp] theorem seedReplace_params (q : SeedSeq) (s : State) : (seedReplace q s).params = s.params := rfl
@[simp] theorem seedReplace_inputs (q : SeedSeq) (s : State) : (seedReplace q s).inputs = s.inputs := rfl
@[simp] theorem seedReplace_rsp (q : SeedSeq) (s : State) : (seedReplace q s).rsp = s.rsp := rfl
@[simp] theorem seedReplace_ent (q : SeedSeq) (s : State) : (seedReplace q s).ent = s.ent := rfl
@[simp] theorem seedReplace_entFree (q : SeedSeq) (s : State) : (seedReplace q s).entFree = s.entFree := rfl
@[simp] theorem seedReplace_resets (q : SeedSeq) (s : State) : (seedReplace q s).resets = s.resets := rfl

@[simp] theorem init_s0 (q : SeedSeq) (s : State) : (init q s).s0 = bits64 (initWork q).w0 := rfl
@[simp] theorem init_s1 (q : SeedSeq) (s : State) : (init q s).s1 = bits64 (initWork q).w1 := rfl
@[simp] theorem init_s2 (q : SeedSeq) (s : State) : (init q s).s2 = bits64 (initWork q).w2 := rfl
@[simp] theorem init_c (q : SeedSeq) (s : State) : (init q s).c = 1#21 := rfl
@[simp] theorem init_n (q : SeedSeq) (s : State) : (init q s).n = (initWork q).n := rfl
@[simp] theorem init_seedStore (q : SeedSeq) (s : State) : (init q s).seedStore = s.seedStore := rfl
@[simp] theorem init_seeded (q : SeedSeq) (s : State) : (init q s).seeded = s.seeded := rfl
@[simp] theorem init_params (q : SeedSeq) (s : State) : (init q s).params = s.params := rfl
@[simp] theorem init_inputs (q : SeedSeq) (s : State) : (init q s).inputs = s.inputs := rfl
@[simp] theorem init_rsp (q : SeedSeq) (s : State) : (init q s).rsp = s.rsp := rfl
@[simp] theorem init_ent (q : SeedSeq) (s : State) : (init q s).ent = s.ent := rfl
@[simp] theorem init_entFree (q : SeedSeq) (s : State) : (init q s).entFree = s.entFree := rfl
@[simp] theorem init_resets (q : SeedSeq) (s : State) : (init q s).resets = s.resets := rfl

@[simp] theorem draw_s0 (s : State) : (draw s).s0 = s.s1 := rfl
@[simp] theorem draw_s1 (s : State) : (draw s).s1 = s.s2 := rfl
@[simp] theorem draw_s2 (s : State) : (draw s).s2 = (drawSplit s.s0 s.c).2 := by simp only [draw]
@[simp] theorem draw_c (s : State) : (draw s).c = (drawSplit s.s0 s.c).1 := by simp only [draw]
@[simp] theorem draw_n (s : State) : (draw s).n = s.n := rfl
@[simp] theorem draw_seedStore (s : State) : (draw s).seedStore = s.seedStore := rfl
@[simp] theorem draw_seeded (s : State) : (draw s).seeded = s.seeded := rfl
@[simp] theorem draw_params (s : State) : (draw s).params = s.params := rfl
@[simp] theorem draw_inputs (s : State) : (draw s).inputs = s.inputs := rfl
@[simp] theorem draw_rsp (s : State) : (draw s).rsp = s.rsp := rfl
@[simp] theorem draw_ent (s : State) : (draw s).ent = s.ent := rfl
@[simp] theorem draw_entFree (s : State) : (draw s).entFree = s.entFree := rfl
@[simp] theorem draw_resets (s : State) : (draw s).resets = s.resets := rfl

@[simp] theorem takeReset_s0 (s : State) : (takeReset s).s0 = Config.resetStateWord s.resets 0 := rfl
@[simp] theorem takeReset_s1 (s : State) : (takeReset s).s1 = Config.resetStateWord s.resets 1 := rfl
@[simp] theorem takeReset_s2 (s : State) : (takeReset s).s2 = Config.resetStateWord s.resets 2 := rfl
@[simp] theorem takeReset_c (s : State) : (takeReset s).c = Config.resetCarry s.resets := rfl
@[simp] theorem takeReset_n (s : State) : (takeReset s).n = Config.resetAccumulator s.resets := rfl
@[simp] theorem takeReset_seedStore (s : State) : (takeReset s).seedStore = Config.resetSeedStore s.resets := rfl
@[simp] theorem takeReset_seeded (s : State) : (takeReset s).seeded = false := rfl
@[simp] theorem takeReset_params (s : State) : (takeReset s).params = s.params := rfl
@[simp] theorem takeReset_inputs (s : State) : (takeReset s).inputs = s.inputs := rfl
@[simp] theorem takeReset_rsp (s : State) : (takeReset s).rsp = s.rsp := rfl
@[simp] theorem takeReset_ent (s : State) : (takeReset s).ent = s.ent := rfl
@[simp] theorem takeReset_entFree (s : State) : (takeReset s).entFree = s.entFree := rfl
@[simp] theorem takeReset_resets (s : State) : (takeReset s).resets = s.resets + 1 := rfl

@[simp] theorem withWords_s0 (s : State) (x : IntWords) : (s.withWords x).s0 = fracWord x.x0 := rfl
@[simp] theorem withWords_s1 (s : State) (x : IntWords) : (s.withWords x).s1 = fracWord x.x1 := rfl
@[simp] theorem withWords_s2 (s : State) (x : IntWords) : (s.withWords x).s2 = fracWord x.x2 := rfl
@[simp] theorem withWords_c (s : State) (x : IntWords) : (s.withWords x).c = x.c := rfl
@[simp] theorem withWords_n (s : State) (x : IntWords) : (s.withWords x).n = s.n := rfl
@[simp] theorem withWords_seedStore (s : State) (x : IntWords) : (s.withWords x).seedStore = s.seedStore := rfl
@[simp] theorem withWords_seeded (s : State) (x : IntWords) : (s.withWords x).seeded = s.seeded := rfl
@[simp] theorem withWords_params (s : State) (x : IntWords) : (s.withWords x).params = s.params := rfl
@[simp] theorem withWords_inputs (s : State) (x : IntWords) : (s.withWords x).inputs = s.inputs := rfl
@[simp] theorem withWords_rsp (s : State) (x : IntWords) : (s.withWords x).rsp = s.rsp := rfl
@[simp] theorem withWords_ent (s : State) (x : IntWords) : (s.withWords x).ent = s.ent := rfl
@[simp] theorem withWords_entFree (s : State) (x : IntWords) : (s.withWords x).entFree = s.entFree := rfl
@[simp] theorem withWords_resets (s : State) (x : IntWords) : (s.withWords x).resets = s.resets := rfl

end Sys2Proof.Machine
end

