-- ==== Sys2Proof/Laws/Ops.lean ====
section
/-! SUPPORT. One lemma per shared operation: what it can do, said once. -/

namespace Sys2Proof.Machine

@[simp] theorem answerOk_eq (s : State) : answerOk s = .next (respond okFrame s) := rfl

@[simp] theorem answerValue_eq (res : BitVec 64) (s : State) : answerValue res s = .next (respond (valueFrame res) s) := rfl

@[simp] theorem raise_eq (f : Fault) (s : State) : raise f s = .next (respond (faultFrame f) s) := rfl

theorem okFrame_eq : okFrame = ⟨0#32, []⟩ := by decide

theorem valueFrame_eq (res : BitVec 64) :
    valueFrame res = ⟨0x100#32, [res.extractLsb' 0 32, res.extractLsb' 32 32]⟩ := by
  simp only [valueFrame, Frame.mk.injEq, and_true]; decide

theorem faultFrame_illegalCommand : faultFrame .illegalCommand = ⟨1#32, []⟩ := by decide

theorem faultFrame_unseeded : faultFrame .unseeded = ⟨2#32, []⟩ := by decide

theorem faultFrame_seedOverflow : faultFrame .seedOverflow = ⟨3#32, []⟩ := by decide

theorem whenSeeded_true {s : State} (h : s.seeded = true) (body : State → Host.Outcome State Fault Refusal) :
    whenSeeded body s = body s := if_pos h

theorem whenSeeded_false {s : State} (h : s.seeded = false) (body : State → Host.Outcome State Fault Refusal) :
    whenSeeded body s = .next (respond (faultFrame .unseeded) s) := by simp [whenSeeded, h]

/-- A guarded command either runs seeded or adds the Unseeded response and nothing else. -/
theorem whenSeeded_next {body : State → Host.Outcome State Fault Refusal} {s t : State}
    (h : whenSeeded body s = .next t) :
    (s.seeded = true ∧ body s = .next t) ∨ (s.seeded = false ∧ t = respond (faultFrame .unseeded) s) := by
  cases hs : s.seeded with
  | true => exact .inl ⟨rfl, by rwa [whenSeeded_true hs] at h⟩
  | false =>
    rw [whenSeeded_false hs] at h
    exact .inr ⟨rfl, by injection h with h; exact h.symm⟩

/-- One entropy word changes ENT and the count of free answers, nothing else. -/
theorem entropy_frame (s : State) : ∃ e k, (entropy s).2 = { s with ent := e, entFree := k } := by
  unfold entropy; split <;> exact ⟨_, _, rfl⟩

/-- Three entropy words change ENT and the count of free answers, nothing else. -/
theorem entropySeed_frame (s : State) : ∃ e k, (entropySeed s).2 = { s with ent := e, entFree := k } := by
  obtain ⟨e0, k0, h0⟩ := entropy_frame s
  obtain ⟨e1, k1, h1⟩ := entropy_frame (entropy s).2
  obtain ⟨e2, k2, h2⟩ := entropy_frame (entropy (entropy s).2).2
  refine ⟨e2, k2, ?_⟩
  show (entropy (entropy (entropy s).2).2).2 = _
  rw [h2, h1, h0]

/-- The sequence SEEDR stores has three elements. -/
@[simp] theorem entropySeed_length (s : State) : (entropySeed s).1.length = 3 := rfl

theorem memRead_congr {s t : State} (h : t.seedStore = s.seedStore) (j i : Nat) : memRead j i t = memRead j i s := by
  simp only [memRead, h]

/-- `drawTimes` changes the words and the carry, nothing else. -/
theorem drawTimes_frame (k : Nat) (s : State) :
    ∃ a b d c, drawTimes k s = { s with s0 := a, s1 := b, s2 := d, c := c } := by
  induction k generalizing s with
  | zero => exact ⟨_, _, _, _, rfl⟩
  | succ k ih =>
    obtain ⟨a, b, d, c, h⟩ := ih (draw s)
    exact ⟨a, b, d, c, by rw [drawTimes, h]; rfl⟩

theorem drawTimes_succ (k : Nat) (s : State) : drawTimes (k + 1) s = drawTimes k (draw s) := rfl

theorem drawTimes_add (j k : Nat) (s : State) : drawTimes (j + k) s = drawTimes k (drawTimes j s) := by
  induction j generalizing s with
  | zero => simp [drawTimes]
  | succ j ih => rw [Nat.succ_add, drawTimes_succ, drawTimes_succ, ih]

@[simp] theorem drawCount_of_le {n : Int} (h : n ≤ 1) : drawCount n = 1 := by simp [drawCount, max_eq_right h]

/-- What SEED and SEEDR share, as one update. -/
theorem storeAndInit_eq (q : SeedSeq) (s : State) :
    storeAndInit q s = .next (respond okFrame (setSeeded (init q (seedReplace q s)))) := rfl

theorem execSeed_of_fits {q : SeedSeq} {s : State} (h : fitsStore s.params q = true) :
    execSeed q s = .next (respond okFrame (setSeeded (init q (seedReplace q s)))) := by
  rw [execSeed, if_pos h, storeAndInit_eq]

theorem execSeed_of_overflow {q : SeedSeq} {s : State} (h : fitsStore s.params q = false) :
    execSeed q s = .next (respond (faultFrame .seedOverflow) s) := by
  simp [execSeed, h]

/-- The two ways an input leaves the port. -/
theorem takeInput_nil {s : State} (h : s.inputs = []) : takeInput s = none := by simp [takeInput, h]

theorem takeInput_cons {s : State} {i : Input} {rest : List Input} (h : s.inputs = i :: rest) :
    takeInput s = some (i, { s with inputs := rest }) := by simp [takeInput, h]

/-- A write of SEED that passes the capacity check leaves a store within its capacity. -/
theorem seedReplace_wf {q : SeedSeq} {s : State} (h : fitsStore s.params q = true) : Memory.wf (seedReplace q s) = true := h

theorem decDigits_length (k w : Nat) (acc : Text) : (decDigits k w acc).length ≤ k + acc.length := by
  induction k generalizing w acc with
  | zero => simp [decDigits]
  | succ k ih =>
    unfold decDigits
    split
    · omega
    · refine (ih _ _).trans ?_
      simp only [List.length_cons]; omega

/-- The text of an entropy word has at most ten codes. -/
theorem decText_length_le (w : Word) : (decText w).length ≤ 10 := by
  unfold decText
  split
  · decide
  · simpa using decDigits_length 10 w.toNat []

/-- Three texts of entropy words fit every legal store, so the write of SEEDR keeps the store within its capacity. -/
theorem entropySeed_fits {p : Params} (h : p.legal = true) (s : State) : fitsStore p (entropySeed s).1 = true := by
  have h3 : totalCodes (entropySeed s).1 ≤ 30 := by
    simp only [totalCodes, entropySeed, List.map_cons, List.map_nil, List.sum_cons, List.sum_nil]
    have h0 := decText_length_le (entropy s).1
    have h1 := decText_length_le (entropy (entropy s).2).1
    have h2 := decText_length_le (entropy (entropy (entropy s).2).2).1
    omega
  obtain ⟨me, mc⟩ := p
  unfold fitsStore Params.legal at *
  cases mc with
  | none => simp_all
  | some m => simp_all; omega

theorem reset_store_wf : Memory.wf State.reset = true := by decide

end Sys2Proof.Machine
end

