-- ==== Sys2Proof/Laws/Exec.lean ====
section
/-! SUPPORT. What a command and a step can do, said once. -/

namespace Sys2Proof.Machine

/-- A step with a frame next runs that frame on the state without it. -/
theorem step_of_frame {s : State} {f : Frame} {rest : List Input} (h : s.inputs = .frame f :: rest) :
    step s = runFrame f { s with inputs := rest } := by
  simp [step, takeInput, h]

/-- A step with the RESET input next. -/
theorem step_of_reset {s : State} {rest : List Input} (h : s.inputs = .reset :: rest) :
    step s = .next (takeReset { s with inputs := rest }) := by
  simp [step, takeInput, h]

theorem runFrame_of_error {f : Frame} {e : DecodeError} (h : decode f = .error e) (s : State) :
    runFrame f s = .next (respond (faultFrame .illegalCommand) s) := by
  simp [runFrame, h]

theorem runFrame_of_ok {f : Frame} {i : Instr} (h : decode f = .ok i) (s : State) : runFrame f s = exec i s := by
  simp [runFrame, h]

/-- Draws keep all but the words and the carry. -/
theorem drawTimes_keeps (k : Nat) (s : State) :
    (drawTimes k s).n = s.n ∧ (drawTimes k s).seedStore = s.seedStore ∧ (drawTimes k s).seeded = s.seeded ∧
    (drawTimes k s).params = s.params ∧ (drawTimes k s).inputs = s.inputs ∧ (drawTimes k s).rsp = s.rsp ∧
    (drawTimes k s).ent = s.ent ∧ (drawTimes k s).entFree = s.entFree ∧ (drawTimes k s).resets = s.resets := by
  obtain ⟨a, b, d, c, h⟩ := drawTimes_frame k s
  rw [h]; simp

/-- Reading three entropy words keeps all but ENT and the count of free answers. -/
theorem entropySeed_keeps (s : State) :
    (entropySeed s).2.params = s.params ∧ (entropySeed s).2.inputs = s.inputs ∧ (entropySeed s).2.rsp = s.rsp ∧
    (entropySeed s).2.resets = s.resets := by
  obtain ⟨e, k, h⟩ := entropySeed_frame s
  rw [h]; simp

theorem draw_respond (f : Frame) (s : State) : draw (respond f s) = respond f (draw s) := by simp only [draw, respond]

theorem drawTimes_respond (k : Nat) (f : Frame) (s : State) : drawTimes k (respond f s) = respond f (drawTimes k s) := by
  induction k generalizing s with
  | zero => rfl
  | succ k ih => rw [drawTimes_succ, drawTimes_succ, draw_respond, ih]

/-- Everything a command can do (60_exceptions.md R163 to R165, 41_init.md R111 to R113, 42_draw.md R131, 43_derived.md R140
to R145): one of the two faults, one of the three ways to reinitialise, or draws with or without a value. -/
theorem exec_cases (i : Instr) (s : State) :
    (needsSeeded i = true ∧ s.seeded = false ∧ exec i s = .next (respond (faultFrame .unseeded) s)) ∨
    (∃ q, i = .seed q ∧ fitsStore s.params q = false ∧ exec i s = .next (respond (faultFrame .seedOverflow) s)) ∨
    (∃ q, i = .seed q ∧ fitsStore s.params q = true ∧
      exec i s = .next (respond okFrame (setSeeded (init q (seedReplace q s))))) ∨
    (i = .seedr ∧ exec i s = .next (respond okFrame
      (setSeeded (init (entropySeed s).1 (seedReplace (entropySeed s).1 (entropySeed s).2))))) ∨
    (i = .restart ∧ s.seeded = true ∧ exec i s = .next (respond okFrame (init s.seedStore s))) ∨
    (∃ k, isDrawing i = true ∧ returnsValue i = false ∧ s.seeded = true ∧
      exec i s = .next (respond okFrame (drawTimes k s))) ∨
    (∃ k r, isDrawing i = true ∧ returnsValue i = true ∧ s.seeded = true ∧
      exec i s = .next (respond (valueFrame r) (drawTimes k s))) := by
  cases i with
  | seed q =>
    cases hq : fitsStore s.params q with
    | true => exact .inr (.inr (.inl ⟨q, rfl, hq, execSeed_of_fits hq⟩))
    | false => exact .inr (.inl ⟨q, rfl, hq, execSeed_of_overflow hq⟩)
  | seedr => exact .inr (.inr (.inr (.inl ⟨rfl, rfl⟩)))
  | restart =>
    cases hs : s.seeded with
    | false => exact .inl ⟨rfl, rfl, by rw [exec, execRestart, whenSeeded_false hs]⟩
    | true => exact .inr (.inr (.inr (.inr (.inl ⟨rfl, rfl, by rw [exec, execRestart, whenSeeded_true hs]; rfl⟩))))
  | random =>
    cases hs : s.seeded with
    | false => exact .inl ⟨rfl, rfl, by rw [exec, execRandom, whenSeeded_false hs]⟩
    | true =>
      exact .inr (.inr (.inr (.inr (.inr (.inr ⟨1, _, rfl, rfl, rfl, by rw [exec, execRandom, whenSeeded_true hs]; rfl⟩)))))
  | fract53 =>
    cases hs : s.seeded with
    | false => exact .inl ⟨rfl, rfl, by rw [exec, execFract53, whenSeeded_false hs]⟩
    | true =>
      exact .inr (.inr (.inr (.inr (.inr (.inr ⟨2, _, rfl, rfl, rfl, by rw [exec, execFract53, whenSeeded_true hs]; rfl⟩)))))
  | int32 =>
    cases hs : s.seeded with
    | false => exact .inl ⟨rfl, rfl, by rw [exec, execInt32, whenSeeded_false hs]⟩
    | true =>
      exact .inr (.inr (.inr (.inr (.inr (.inr ⟨1, _, rfl, rfl, rfl, by rw [exec, execInt32, whenSeeded_true hs]; rfl⟩)))))
  | cycle n =>
    cases hs : s.seeded with
    | false => exact .inl ⟨rfl, rfl, by rw [exec, execCycle, whenSeeded_false hs]⟩
    | true =>
      exact .inr (.inr (.inr (.inr (.inr (.inl ⟨_, rfl, rfl, rfl, by rw [exec, execCycle, whenSeeded_true hs, answerOk_eq]⟩)))))
  | cycled =>
    cases hs : s.seeded with
    | false => exact .inl ⟨rfl, rfl, by rw [exec, execCycled, whenSeeded_false hs]⟩
    | true =>
      exact .inr (.inr (.inr (.inr (.inr (.inl ⟨1, rfl, rfl, rfl, by rw [exec, execCycled, whenSeeded_true hs]; rfl⟩)))))

end Sys2Proof.Machine
end

