-- ==== Sys2Proof/Laws/Float.lean ====
section
/-! SUPPORT. What each floating-point primitive does to the real value: `funits` turns it into one function of natural
numbers, `rneUnits`, whose exact and scaled cases are all the rules use. -/

namespace Sys2Proof.Machine

/-- RNE53 on naturals: `v` counts units of `2^-(1074 + low)`, the result units of `2^-1074`. -/
def rneUnits (v low : Nat) : Nat :=
  let sh := max (bitLen v - 53) low
  rneShift v sh * 2 ^ (sh - low)

theorem bitLen_eq_size (p : Nat) : bitLen p = p.size := by
  unfold bitLen
  split
  · simp_all
  · rename_i h
    refine le_antisymm ?_ ?_
    · exact Nat.lt_size.mpr (Nat.log2_self_le h)
    · exact Nat.size_le.mpr Nat.lt_log2_self

theorem bitLen_le {p k : Nat} : bitLen p ≤ k ↔ p < 2 ^ k := by
  rw [bitLen_eq_size, Nat.size_le]

theorem lt_two_pow_bitLen (p : Nat) : p < 2 ^ bitLen p := bitLen_le.mp le_rfl

theorem bitLen_mul_two_pow {p : Nat} (h : p ≠ 0) (j : Nat) : bitLen (p * 2 ^ j) = bitLen p + j := by
  rw [bitLen_eq_size, bitLen_eq_size, ← Nat.shiftLeft_eq, Nat.size_shiftLeft h]

@[simp] theorem bitLen_zero : bitLen 0 = 0 := rfl

/-- Rounding a multiple of the spacing changes nothing. -/
theorem rneShift_exact (m sh : Nat) : rneShift (m * 2 ^ sh) sh = m := by
  have hp : 0 < 2 ^ sh := Nat.two_pow_pos sh
  simp [rneShift, Nat.mul_div_cancel _ hp, hp.ne]

/-- Rounding commutes with scaling by a power of two. -/
theorem rneShift_scale (p sh j : Nat) : rneShift (p * 2 ^ j) (sh + j) = rneShift p sh := by
  have hj : 0 < 2 ^ j := Nat.two_pow_pos j
  unfold rneShift
  rw [Nat.pow_add, Nat.mul_div_mul_right _ _ hj, Nat.mul_mod_mul_right, ← Nat.mul_assoc]
  simp only [Nat.mul_lt_mul_right hj, Nat.mul_left_inj hj.ne']

/-- Rounding to the spacing is off by at most one spacing, downwards exactly when the quotient is kept. -/
theorem rneShift_bounds (p sh : Nat) : p / 2 ^ sh ≤ rneShift p sh ∧ rneShift p sh ≤ p / 2 ^ sh + 1 := by
  unfold rneShift
  dsimp only
  split <;> omega

theorem rneUnits_exact {m j low : Nat} (hm : m < 2 ^ 53) (hl : low ≤ j) :
    rneUnits (m * 2 ^ j) low = m * 2 ^ (j - low) := by
  rcases Nat.eq_zero_or_pos m with rfl | h0
  · simp [rneUnits, rneShift]
  · have hb : bitLen m ≤ 53 := bitLen_le.mpr hm
    unfold rneUnits
    rw [bitLen_mul_two_pow h0.ne']
    dsimp only
    generalize hsh : max (bitLen m + j - 53) low = sh
    have h1 : sh ≤ j := by omega
    have h2 : low ≤ sh := by omega
    obtain ⟨d, rfl⟩ := Nat.exists_eq_add_of_le h1
    rw [Nat.pow_add, Nat.mul_comm (2 ^ sh), ← Nat.mul_assoc, rneShift_exact, Nat.mul_assoc, ← Nat.pow_add]
    congr 2; omega

theorem rnd53_eq (p : Nat) : rnd53 p = rneUnits p 0 := by
  unfold rnd53 rneUnits
  dsimp only
  split
  · rename_i h
    have : bitLen p - 53 = 0 := by omega
    simp [this, rneShift, Nat.mod_one]
  · rename_i h
    obtain ⟨k, hk⟩ : ∃ k, bitLen p - 53 = k + 1 := ⟨bitLen p - 54, by omega⟩
    simp only [hk, Nat.sub_zero, Nat.add_sub_cancel, Nat.max_zero, rneShift, Nat.pow_succ]
    congr 1
    have hh : (2 ^ k < p % (2 ^ k * 2) ∨ p % (2 ^ k * 2) = 2 ^ k ∧ p / (2 ^ k * 2) % 2 = 1) ↔
        (2 ^ k * 2 < 2 * (p % (2 ^ k * 2)) ∨ 2 * (p % (2 ^ k * 2)) = 2 ^ k * 2 ∧ p / (2 ^ k * 2) % 2 = 1) := by
      constructor <;> (rintro (h | h) <;> omega)
    simp only [hh]

/-- Rounding to 53 bits commutes with scaling, where the scaled value is not below the smallest spacing. -/
theorem rneUnits_scale (p : Nat) {j low : Nat} (hl : low ≤ j) :
    rneUnits (p * 2 ^ j) low = rnd53 p * 2 ^ (j - low) := by
  rcases lt_or_ge p (2 ^ 53) with h | h
  · rw [rneUnits_exact h hl, rnd53]
    simp [bitLen_le.mpr h]
  · have hp : p ≠ 0 := by rintro rfl; simp at h
    have hb : 53 < bitLen p := by
      by_contra hc
      exact absurd (bitLen_le.mp (not_lt.mp hc)) (not_lt.mpr h)
    rw [rnd53_eq, rneUnits, rneUnits, bitLen_mul_two_pow hp]
    have h1 : max (bitLen p + j - 53) low = (bitLen p - 53) + j := by omega
    rw [h1, rneShift_scale, Nat.max_zero, Nat.sub_zero, Nat.mul_assoc, ← Nat.pow_add]
    congr 2; omega

/-- `rne53` rounds the real value it is given, whichever pair stands for it. -/
theorem funits_rne53 (p e low : Nat) : funits (rne53 p e low) = rneUnits (p * 2 ^ e) low := by
  rcases Nat.eq_zero_or_pos p with rfl | hp
  · simp [funits, rne53, rneUnits, rneShift]
  · rcases le_total e low with he | he
    · unfold rneUnits rne53 funits
      rw [bitLen_mul_two_pow hp.ne']
      dsimp only
      have h1 : max (bitLen p + e - 53) low = max (bitLen p - 53) (low - e) + e := by omega
      rw [h1, rneShift_scale]
      congr 2; omega
    · rw [rneUnits_scale p he, rnd53_eq]
      unfold rneUnits rne53 funits
      dsimp only
      have h1 : low - e = 0 := by omega
      rw [h1, Nat.sub_zero, Nat.mul_assoc, ← Nat.pow_add]
      congr 2; omega

@[simp] theorem funits_fOfNat (n : Nat) : funits (fOfNat n) = n * 2 ^ 1074 := by
  simp only [funits, fOfNat]

theorem funits_fmul (a b : F64) : funits (fmul a b) = rneUnits (funits a * funits b) 1074 := by
  rw [fmul, funits_rne53]
  congr 1
  simp only [funits]; ring

theorem alignTo_mul {e : Nat} {a : F64} (h : e ≤ a.exp) : alignTo e a * 2 ^ e = funits a := by
  rw [alignTo, funits, Nat.mul_assoc, ← Nat.pow_add, Nat.sub_add_cancel h]

theorem funits_fadd (a b : F64) : funits (fadd a b) = rneUnits (funits a + funits b) 0 := by
  rw [fadd, funits_rne53, Nat.add_mul, alignTo_mul (min_le_left _ _), alignTo_mul (min_le_right _ _)]

theorem funits_fsub (a b : F64) : funits (fsub a b) = rneUnits (funits a - funits b) 0 := by
  rw [fsub, funits_rne53, Nat.sub_mul, alignTo_mul (min_le_left _ _), alignTo_mul (min_le_right _ _)]

theorem flt_iff (a b : F64) : flt a b = true ↔ funits a < funits b := by
  unfold flt
  rw [decide_eq_true_iff, ← alignTo_mul (min_le_left a.exp b.exp), ← alignTo_mul (min_le_right a.exp b.exp)]
  exact (Nat.mul_lt_mul_right (Nat.two_pow_pos _)).symm

theorem ffloor_eq (a : F64) : ffloor a = funits a / 2 ^ 1074 := by
  unfold ffloor funits
  generalize 1074 = k
  split
  · rename_i h
    obtain ⟨d, hd⟩ := Nat.exists_eq_add_of_le h
    rw [hd, Nat.add_sub_cancel_left, Nat.pow_add, Nat.mul_comm (2 ^ k), ← Nat.mul_assoc,
      Nat.mul_div_cancel _ (Nat.two_pow_pos _)]
  · rename_i h
    obtain ⟨d, hd⟩ := Nat.exists_eq_add_of_le (Nat.le_of_not_le h)
    subst hd
    rw [Nat.add_sub_cancel_left, Nat.pow_add, Nat.mul_comm (2 ^ a.exp), Nat.mul_div_mul_right _ _ (Nat.two_pow_pos _)]

/-- The pattern of a value depends on the value alone. -/
theorem bits64_eq (a : F64) :
    bits64 a = BitVec.ofNat 64 ((bitLen (funits a) - 53) * 2 ^ 52 + funits a / 2 ^ (bitLen (funits a) - 53)) := by
  unfold bits64
  split
  · rename_i h
    simp [funits, h]
  · rename_i h
    have hb : bitLen (funits a) = bitLen a.sig + a.exp := by rw [funits, bitLen_mul_two_pow h]
    rw [hb]
    generalize ht : bitLen a.sig + a.exp - 53 = t
    dsimp only
    have key : (if t ≤ a.exp then a.sig * 2 ^ (a.exp - t) else a.sig / 2 ^ (t - a.exp)) = funits a / 2 ^ t := by
      unfold funits
      split
      · rename_i h1
        obtain ⟨d, hd⟩ := Nat.exists_eq_add_of_le h1
        rw [hd, Nat.add_sub_cancel_left, Nat.pow_add, Nat.mul_comm (2 ^ t), ← Nat.mul_assoc,
          Nat.mul_div_cancel _ (Nat.two_pow_pos _)]
      · rename_i h1
        obtain ⟨d, hd⟩ := Nat.exists_eq_add_of_le (Nat.le_of_not_le h1)
        rw [hd, Nat.add_sub_cancel_left, Nat.pow_add, Nat.mul_comm (2 ^ a.exp),
          Nat.mul_div_mul_right _ _ (Nat.two_pow_pos _)]
    rw [key]

/-- Two pairs of one value have one pattern. -/
theorem bits64_congr {a b : F64} (h : funits a = funits b) : bits64 a = bits64 b := by
  rw [bits64_eq, bits64_eq, h]

end Sys2Proof.Machine
end

