-- ==== Sys2Proof/Laws/PerInstr.lean ====
section
/-! SUPPORT. Statements for all commands, one lemma per constructor. -/

namespace Sys2Proof.Laws

/-- The opcode of a command (30_encoding.md R68). -/
def opcodeOf : Instr → BitVec 8
  | .seed _ => 0x01#8
  | .seedr => 0x02#8
  | .restart => 0x03#8
  | .random => 0x10#8
  | .fract53 => 0x11#8
  | .int32 => 0x12#8
  | .cycle _ => 0x13#8
  | .cycled => 0x13#8

theorem toNat_append_eq {v w : Nat} (x : BitVec v) (y : BitVec w) : (x ++ y).toNat = x.toNat * 2 ^ w + y.toNat := by
  rw [BitVec.toNat_append, ← Nat.shiftLeft_add_eq_or_of_lt y.isLt, Nat.shiftLeft_eq]

/-- The header as a number (30_encoding.md R62). -/
theorem headerWord_toNat (opc : BitVec 8) (p : BitVec 1) (cnt : BitVec 16) :
    (headerWord opc p cnt).toNat = opc.toNat * 2 ^ 24 + p.toNat * 2 ^ 16 + cnt.toNat := by
  have h : (headerWord opc p cnt).toNat = (opc ++ 0#7 ++ p ++ cnt).toNat := rfl
  rw [h, toNat_append_eq, toNat_append_eq, toNat_append_eq]
  simp only [BitVec.toNat_ofNat]
  omega

theorem opcField_headerWord (opc : BitVec 8) (p : BitVec 1) (cnt : BitVec 16) :
    opcField (headerWord opc p cnt) = opc := by
  apply BitVec.eq_of_toNat_eq
  have h1 := opc.isLt
  have h2 := p.isLt
  have h3 := cnt.isLt
  rw [opcField, BitVec.extractLsb'_toNat, headerWord_toNat, Nat.shiftRight_eq_div_pow]
  omega

theorem rsvField_headerWord (opc : BitVec 8) (p : BitVec 1) (cnt : BitVec 16) :
    rsvField (headerWord opc p cnt) = 0#7 := by
  apply BitVec.eq_of_toNat_eq
  have h1 := opc.isLt
  have h2 := p.isLt
  have h3 := cnt.isLt
  rw [rsvField, BitVec.extractLsb'_toNat, headerWord_toNat, Nat.shiftRight_eq_div_pow]
  simp only [BitVec.toNat_ofNat]
  omega

theorem pField_headerWord (opc : BitVec 8) (p : BitVec 1) (cnt : BitVec 16) : pField (headerWord opc p cnt) = p := by
  apply BitVec.eq_of_toNat_eq
  have h1 := opc.isLt
  have h2 := p.isLt
  have h3 := cnt.isLt
  rw [pField, BitVec.extractLsb'_toNat, headerWord_toNat, Nat.shiftRight_eq_div_pow]
  omega

theorem cntField_headerWord (opc : BitVec 8) (p : BitVec 1) (cnt : BitVec 16) :
    cntField (headerWord opc p cnt) = cnt := by
  apply BitVec.eq_of_toNat_eq
  have h1 := opc.isLt
  have h2 := p.isLt
  have h3 := cnt.isLt
  rw [cntField, BitVec.extractLsb'_toNat, headerWord_toNat, Nat.shiftRight_eq_div_pow]
  omega

/-- A command's header names its opcode and leaves the reserved field 0 (30_encoding.md R62, R68). -/
def EncodedHeader.Statement (i : Instr) : Prop :=
  opcField (encode i).header = opcodeOf i ∧ rsvField (encode i).header = 0#7

theorem EncodedHeader.seed (q : SeedSeq) : EncodedHeader.Statement (.seed q) :=
  ⟨opcField_headerWord _ _ _, rsvField_headerWord _ _ _⟩

theorem EncodedHeader.seedr : EncodedHeader.Statement .seedr := ⟨opcField_headerWord _ _ _, rsvField_headerWord _ _ _⟩

theorem EncodedHeader.restart : EncodedHeader.Statement .restart := ⟨opcField_headerWord _ _ _, rsvField_headerWord _ _ _⟩

theorem EncodedHeader.random : EncodedHeader.Statement .random := ⟨opcField_headerWord _ _ _, rsvField_headerWord _ _ _⟩

theorem EncodedHeader.fract53 : EncodedHeader.Statement .fract53 := ⟨opcField_headerWord _ _ _, rsvField_headerWord _ _ _⟩

theorem EncodedHeader.int32 : EncodedHeader.Statement .int32 := ⟨opcField_headerWord _ _ _, rsvField_headerWord _ _ _⟩

theorem EncodedHeader.cycle (n : Int) : EncodedHeader.Statement (.cycle n) :=
  ⟨opcField_headerWord _ _ _, rsvField_headerWord _ _ _⟩

theorem EncodedHeader.cycled : EncodedHeader.Statement .cycled := ⟨opcField_headerWord _ _ _, rsvField_headerWord _ _ _⟩

end Sys2Proof.Laws
end

