-- ==== Sys2Proof/Tests/Slice0.lean ====
section
/-! SUPPORT. Tests: the WellFormed smoke, words written out from the encoding, one or two steps per command with the
expected results of 95_test_vectors.md, and a witness for every statement that has hypotheses. -/

namespace Sys2Proof.Tests

open Sys2Proof Sys2Proof.Machine

/-! ### Helpers -/

/-- The words after `seed "test"` (95_test_vectors.md section 2.3). -/
def testWords : IntWords := ⟨2099335663#32, 4110573609#32, 1758352871#32, 1#21⟩

/-- A block seeded by hand: the words x, an empty store. -/
def seededAt (x : IntWords) : State := { State.reset.withWords x with seeded := true }

/-- A block after `seed "test"`, with a stored sequence. -/
def afterTest : State := { seededAt testWords with n := 2183118428#32, seedStore := [[116#21, 101#21, 115#21, 116#21]] }

/-- The state with one frame to come. -/
def sending (f : Frame) (s : State) : State := { s with inputs := [.frame f] }

/-- The next state of an outcome. -/
def nextOf : Host.Outcome State Fault Refusal → Option State
  | .next s => some s
  | .fault _ => none
  | .refused _ => none

/-- The last response of the next state. -/
def answerOf (o : Host.Outcome State Fault Refusal) : Option Frame := (nextOf o).bind fun t => t.rsp.getLast?

/-- The integer view of the next state, `(X[0], X[1], X[2], C)`. -/
def viewOf (o : Host.Outcome State Fault Refusal) : Option (Nat × Nat × Nat × Nat) :=
  (nextOf o).map fun t => ((intView t.s0).toNat, (intView t.s1).toNat, (intView t.s2).toNat, t.c.toNat)

/-! ### WellFormed: an ill-formed term for each check -/

/-- 65536 elements do not fit CNT; 65535 do (30_encoding.md R67). -/
theorem test_wellFormed_refuses_count : (Instr.seed (List.replicate 65536 [])).wellFormed = false := by
  rw [Instr.wellFormed, countFits, List.length_replicate, decide_eq_false (by decide), Bool.false_and]

theorem test_wellFormed_takes_count : countFits (List.replicate 65535 []) = true := by
  rw [countFits, List.length_replicate]; decide

/-- An element of `2^32` codes does not fit its length word (30_encoding.md R65). -/
theorem test_wellFormed_refuses_length (e : Text) (h : e.length = 2 ^ 32) : (Instr.seed [e]).wellFormed = false := by
  rw [Instr.wellFormed, lengthsFit, List.all_cons, h, decide_eq_false (by decide), Bool.false_and, Bool.and_false]

theorem test_wellFormed_refuses_replicate : (Instr.seed [List.replicate (2 ^ 32) 0#21]).wellFormed = false :=
  test_wellFormed_refuses_length _ List.length_replicate

/-- A count above or below 32-bit two's complement (30_encoding.md R64). -/
theorem test_wellFormed_refuses_cycle :
    (Instr.cycle 2147483648).wellFormed = false ∧ (Instr.cycle (-2147483649)).wellFormed = false := by decide

theorem test_wellFormed_takes_cycle :
    (Instr.cycle 2147483647).wellFormed = true ∧ (Instr.cycle (-2147483648)).wellFormed = true := by decide

/-- A host call no frame can carry stands for a command that is not well formed (assumption 22). -/
theorem test_hostCall_out_of_range :
    (commandOf .codePoint (.cycle (some 2147483648))).wellFormed = false ∧
    (commandOf .codePoint (.cycle (some 2147483647))).wellFormed = true := by decide

/-- `cycle` takes a minus sign and no plus sign (assumption 15). -/
theorem test_cycle_operand_signs :
    readCount ['-', '5'] = some (-5) ∧ readCount ['5'] = some 5 ∧ readCount ['+', '5'] = none := by decide

/-! ### Decode: every command's words, from 30_encoding.md R62 to R68 -/

theorem test_decode_seed :
    decode ⟨0x01000002#32, [1#32, 0x61#32, 1#32, 0x62#32]⟩ = .ok (.seed [[97#21], [98#21]]) := rfl
theorem test_decode_seed_empty : decode ⟨0x01000000#32, []⟩ = .ok (.seed []) := rfl
theorem test_decode_seedr : decode ⟨0x02000000#32, []⟩ = .ok .seedr := rfl
theorem test_decode_restart : decode ⟨0x03000000#32, []⟩ = .ok .restart := rfl
theorem test_decode_random : decode ⟨0x10000000#32, []⟩ = .ok .random := rfl
theorem test_decode_fract53 : decode ⟨0x11000000#32, []⟩ = .ok .fract53 := rfl
theorem test_decode_int32 : decode ⟨0x12000000#32, []⟩ = .ok .int32 := rfl
theorem test_decode_cycle : decode ⟨0x13010000#32, [3#32]⟩ = .ok (.cycle 3) := rfl
theorem test_decode_cycle_negative : decode ⟨0x13010000#32, [0xFFFFFFFB#32]⟩ = .ok (.cycle (-5)) := by decide
theorem test_decode_cycled : decode ⟨0x13000000#32, []⟩ = .ok .cycled := rfl

/-- A code word with every code bit set; the largest legal code (30_encoding.md R66). -/
theorem test_decode_largest_code : decode ⟨0x01000001#32, [1#32, 0x001FFFFF#32]⟩ = .ok (.seed [[0x1FFFFF#21]]) := by decide

theorem test_decode_reserved : decode ⟨0x10020000#32, []⟩ = .error .reservedBits := rfl
theorem test_decode_opcode : decode ⟨0x14000000#32, []⟩ = .error .unassignedOpcode := rfl
theorem test_decode_presence : decode ⟨0x02010000#32, []⟩ = .error .presenceBit := rfl
theorem test_decode_count : decode ⟨0x10000001#32, []⟩ = .error .countField := rfl
theorem test_decode_payload : decode ⟨0x13010000#32, []⟩ = .error .payloadLength := rfl
theorem test_decode_no_length_word : decode ⟨0x01000001#32, []⟩ = .error .lengthWordMissing := rfl
theorem test_decode_element_past_frame : decode ⟨0x01000001#32, [2#32, 0x61#32]⟩ = .error .elementPastFrame := rfl
theorem test_decode_code_word : decode ⟨0x01000001#32, [1#32, 0x00200000#32]⟩ = .error .codeReservedBits := rfl
theorem test_decode_left_over : decode ⟨0x01000000#32, [0#32]⟩ = .error .wordsLeftOver := rfl

/-- The table's words, and CYCLE's operand word of zeros above the table's bits. -/
theorem test_decodeTableWord :
    decodeTableWord 32 0x01000000 = some (.seed []) ∧ decodeTableWord 32 0x01000002 = some (.seed [[], []]) ∧
    decodeTableWord 32 0x13010000 = some (.cycle 0) ∧ decodeTableWord 32 0x13000000 = some .cycled ∧
    decodeTableWord 64 0x000000FF13010000 = some (.cycle 255) ∧ decodeTableWord 32 0x14000000 = none := by decide

/-! ### Primitives -/

/-- Rounds of 95_test_vectors.md section 2.1: the wrap of n1, both ties, s8 above `2^32`, the largest code. -/
theorem test_absorb :
    absorb 4022871197#32 32#21 = 3707969490#32 ∧ absorb 4294967295#32 1#21 = 0#32 ∧ absorb 0#32 39#21 = 0#32 ∧
    absorb 0#32 40#21 = 33678182#32 ∧ absorb 3628045#32 0#21 = 181295479#32 ∧
    absorb 35178456#32 0#21 = 2046565321#32 ∧ absorb 2075626248#32 100#21 = 21719515#32 ∧
    absorb 4022871197#32 2097151#21 = 2738261527#32 := by decide +kernel

/-- Two states of 95_test_vectors.md section 2.4 on either side of the carry boundary, and the largest sum. -/
theorem test_drawSplit :
    drawSplit (fracWord 2053#32) 832428#21 = (0#21, fracWord 4294967295#32) ∧
    drawSplit (fracWord 2053#32) 832429#21 = (1#21, 0#64) ∧
    drawSplit (fracWord 4294967295#32) 2091638#21 = (2091638#21, 0x3FEFFFFFFFE00000#64) := by decide +kernel

/-- 95_test_vectors.md section 2.5: the smallest step of FRACT53, its largest value, and INT32's largest value. -/
theorem test_fract53_and_int32 :
    fractOf (fracWord 0#32) (fracWord 0x800#32) = 0x3CA0000000000000#64 ∧
    fractOf (fracWord 0xFFFFFFFF#32) (fracWord 0xFFFFFFFF#32) = 0x3FEFFFFFFFFFFFFF#64 ∧
    int32Of (fracWord 0xFFFFFFFF#32) = 0x41EFFFFFFFE00000#64 := by decide +kernel

/-! ### One step of each command -/

/-- `seed "test"` (95_test_vectors.md section 2.3). -/
theorem test_seed : viewOf (exec (.seed [[116#21, 101#21, 115#21, 116#21]]) State.reset) =
    some (2099335663, 4110573609, 1758352871, 1) := by decide +kernel

/-- `seed ""`: the empty element leaves S[2] at +0 (95_test_vectors.md section 2.3). -/
theorem test_seed_empty_element :
    viewOf (exec (.seed [[]]) afterTest) = some (4061465487, 998582810, 0, 1) := by decide +kernel

/-- Program P6: three entropy words in order (95_test_vectors.md). -/
theorem test_seedr : viewOf (exec .seedr { State.reset with ent := [4294967295#32, 305419896#32, 2147483648#32] }) =
    some (2293522026, 2151469141, 3486116564, 1) := by decide +kernel

/-- The texts SEEDR stores in program P6 (95_test_vectors.md). -/
theorem test_seedr_store :
    (nextOf (exec .seedr { State.reset with ent := [4294967295#32, 305419896#32, 2147483648#32] })).map State.seedStore =
    some [[52#21, 50#21, 57#21, 52#21, 57#21, 54#21, 55#21, 50#21, 57#21, 53#21],
      [51#21, 48#21, 53#21, 52#21, 49#21, 57#21, 56#21, 57#21, 54#21],
      [50#21, 49#21, 52#21, 55#21, 52#21, 56#21, 51#21, 54#21, 52#21, 56#21]] := by decide +kernel

/-- RESTART takes a block that has drawn back to its seed (95_test_vectors.md E1). -/
theorem test_restart : viewOf (exec .restart (draw afterTest)) = some (2099335663, 4110573609, 1758352871, 1) := by
  decide +kernel

/-- The response of the first RANDOM after `seed "test"` (95_test_vectors.md section 2.4). -/
theorem test_random : answerOf (exec .random afterTest) = some ⟨0x100#32, [0x83400000#32, 0x3FE16A51#32]⟩ := by
  decide +kernel

theorem test_random_state : viewOf (exec .random afterTest) = some (4110573609, 1758352871, 2337442842, 1022371) := by
  decide +kernel

/-- FRACT53 after `seed "test"` (95_test_vectors.md section 2.5): the first draw is the high-order term. -/
theorem test_fract53 : answerOf (exec .fract53 afterTest) = some ⟨0x100#32, [0x8356A0D8#32, 0x3FE16A51#32]⟩ := by
  decide +kernel

theorem test_fract53_state : viewOf (exec .fract53 afterTest) = some (1758352871, 2337442842, 3037120178, 2001839) := by
  decide +kernel

/-- INT32 after `seed "test"` (95_test_vectors.md section 2.5). -/
theorem test_int32 : answerOf (exec .int32 afterTest) = some ⟨0x100#32, [0x83400000#32, 0x41E16A51#32]⟩ := by
  decide +kernel

/-- CYCLE 2, and a count that is clamped to one draw (95_test_vectors.md section 2.6). -/
theorem test_cycle : viewOf (exec (.cycle 2) afterTest) = some (1758352871, 2337442842, 3037120178, 2001839) := by
  decide +kernel

theorem test_cycle_clamped :
    viewOf (exec (.cycle (-2147483648)) afterTest) = some (4110573609, 1758352871, 2337442842, 1022371) := by decide +kernel

theorem test_cycled : viewOf (exec .cycled afterTest) = some (4110573609, 1758352871, 2337442842, 1022371) := by
  decide +kernel

/-- Program P5: RANDOM before any seed, and a malformed frame (95_test_vectors.md). -/
theorem test_unseeded : nextOf (step (sending ⟨0x10000000#32, []⟩ State.reset)) =
    some { State.reset with rsp := [⟨2#32, []⟩] } := by decide

theorem test_malformed : nextOf (step (sending ⟨0x13010000#32, []⟩ State.reset)) =
    some { State.reset with rsp := [⟨1#32, []⟩] } := by decide

/-- 60_exceptions.md R164: one element more than SEED_MAX_ELEMS. -/
theorem test_seedOverflow :
    answerOf (exec (.seed [[], [], [], []]) { afterTest with params := ⟨3, none⟩ }) = some ⟨3#32, []⟩ := by decide

/-- The first step after reset runs the frame that was put on the port. -/
theorem test_step_from_reset : answerOf (step (State.reset.withFetchWord 32 0x01000000)) = some ⟨0#32, []⟩ := by
  decide +kernel

/-! ### Witnesses: for every statement with hypotheses, values that meet them, clause by clause -/

theorem witness_DecodeEncodeRoundTrip :
    (Instr.cycle (-2147483648)).wellFormed = true ∧ (Instr.seed [[], [0x1FFFFF#21]]).wellFormed = true ∧
    Instr.seedr.wellFormed = true := by decide

theorem witness_EncodeDecodeRoundTrip : decode ⟨0x01000001#32, [1#32, 0x001FFFFF#32]⟩ = .ok (.seed [[0x1FFFFF#21]]) := by
  decide

/-- An unassigned opcode, and a SEED payload of no right shape. -/
theorem witness_IllegalFrames_illegal :
    (sending ⟨0x04000000#32, []⟩ afterTest).inputs = .frame ⟨0x04000000#32, []⟩ :: [] ∧
    illegalShape ⟨0x04000000#32, []⟩ ∧ illegalShape ⟨0x01000001#32, []⟩ := by
  refine ⟨rfl, .inl (by decide), .inr (.inr (.inr (.inr (.inr (.inr ⟨by decide, ?_⟩)))))⟩
  rintro ⟨blocks, hlen, -, hp⟩
  obtain ⟨b, rfl⟩ := List.length_eq_one_iff.mp hlen
  simp at hp

/-- The largest legal code, and a command with no operand. -/
theorem witness_IllegalFrames_legal :
    ¬ illegalShape ⟨0x01000001#32, [1#32, 0x001FFFFF#32]⟩ ∧ ¬ illegalShape ⟨0x10000000#32, []⟩ := by
  constructor
  · rintro (h | h | h | h | h | h | h)
    iterate 6 exact absurd h (by decide)
    refine h.2 ⟨[[0x001FFFFF#32]], rfl, fun b hb => ?_, rfl⟩
    rw [List.mem_singleton.mp hb]
    refine ⟨by norm_num, fun w hw => ?_⟩
    rw [List.mem_singleton.mp hw]
    decide
  · rintro (h | h | h | h | h | h | h)
    iterate 6 exact absurd h (by decide)
    exact absurd h.1 (by decide)

/-- The last code point below 0x10000. -/
theorem witness_TextUnits : ∀ ch ∈ ['a', '\uffff'], ch.toNat < 0x10000 := by
  intro ch h
  rcases List.mem_pair.mp h with rfl | rfl
  · decide
  · exact Nat.lt_of_le_of_lt (m := 0xFFFF) (Nat.le_of_eq rfl) (by decide)

theorem witness_StepRuns :
    (sending ⟨0x13010000#32, [3#32]⟩ afterTest).inputs = .frame ⟨0x13010000#32, [3#32]⟩ :: [] ∧
    decode ⟨0x13010000#32, [3#32]⟩ = .ok (.cycle 3) := ⟨rfl, rfl⟩

theorem witness_TableWord : decodeTableWord 32 0x10000000 = some .random := by decide

theorem witness_Malformed :
    (sending ⟨0x10000001#32, []⟩ afterTest).inputs = .frame ⟨0x10000001#32, []⟩ :: [] ∧
    decode ⟨0x10000001#32, []⟩ = .error .countField := ⟨rfl, rfl⟩

theorem witness_Idle : afterTest.inputs = [] := rfl

theorem witness_ResetInput : { afterTest with inputs := [.reset] }.inputs = .reset :: [] := rfl

/-- A seeded state that meets the invariant, with a command to run; and one with the largest carry. -/
theorem witness_EveryStepKeeps :
    (sending ⟨0x10000000#32, []⟩ afterTest).inv = true ∧
    (nextOf (step (sending ⟨0x10000000#32, []⟩ afterTest))).isSome = true ∧
    (seededAt ⟨0xFFFFFFFF#32, 0#32, 1#32, 2091638#21⟩).inv = true := by decide +kernel

theorem witness_StepConsumes : (nextOf (step (sending ⟨0x13000000#32, []⟩ State.reset))).isSome = true := by decide

/-- Two unseeded blocks that differ, running a command. -/
theorem witness_Unspecified :
    sameButUnspecified (sending ⟨0x10000000#32, []⟩ State.reset) { sending ⟨0x10000000#32, []⟩ State.reset with c := 5#21 } ∧
    Sys2Proof.core.run 1 (sending ⟨0x10000000#32, []⟩ State.reset) =
      .next { State.reset with rsp := [⟨2#32, []⟩] } := by
  refine ⟨⟨rfl, fun h => absurd h (by decide)⟩, rfl⟩

/-- All four causes: OK, malformed, unseeded, above capacity. -/
theorem witness_StatusCode :
    (nextOf (step (sending ⟨0x02000000#32, []⟩ State.reset))).isSome = true ∧
    (∃ e : DecodeError, decode ⟨0x00000000#32, []⟩ = .error e) ∧
    (State.reset.seeded = false ∧ ∃ i : Instr, decode ⟨0x03000000#32, []⟩ = .ok i ∧ needsSeeded i = true) ∧
    (∃ q : SeedSeq, decode ⟨0x01000001#32, [31#32]⟩ = .error .elementPastFrame ∧
      decode ⟨0x01000004#32, [0#32, 0#32, 0#32, 0#32]⟩ = .ok (.seed q) ∧
      (Params.mk 3 none).seedMaxElems < q.length) :=
  ⟨by decide, ⟨_, rfl⟩, ⟨rfl, .restart, rfl, rfl⟩, [[], [], [], []], rfl, rfl, by decide⟩

/-- A response with a value and one without. -/
theorem witness_OneResponse :
    (answerOf (step (sending ⟨0x10000000#32, []⟩ afterTest))).map (fun r => (r.header.extractLsb' 8 1, r.payload.length)) =
      some (1#1, 2) ∧
    (answerOf (step (sending ⟨0x13000000#32, []⟩ afterTest))).map (fun r => (r.header.extractLsb' 8 1, r.payload.length)) =
      some (0#1, 0) := by decide +kernel

theorem witness_FaultsChangeNothing :
    nextOf (step (sending ⟨0x12000000#32, []⟩ State.reset)) = some { State.reset with rsp := [⟨2#32, []⟩] } ∧
    (2#32).extractLsb' 0 8 ≠ 0#8 := by decide

theorem witness_UnseededFault_raised : needsSeeded (.cycle 0) = true ∧ State.reset.seeded = false := by decide

/-- A command that never raises it, and a seeded block. -/
theorem witness_UnseededFault_never :
    needsSeeded (.seed []) = false ∧ (answerOf (exec (.seed []) State.reset)).isSome = true ∧ afterTest.seeded = true ∧
    (answerOf (exec .random afterTest)).isSome = true := by decide +kernel

theorem witness_UnseededFault_stays :
    afterTest.seeded = true ∧ (sending ⟨0x01000000#32, []⟩ afterTest).inputs.head? ≠ some .reset ∧
    (nextOf (step (sending ⟨0x01000000#32, []⟩ afterTest))).isSome = true := by decide +kernel

/-- One more than each capacity. -/
theorem witness_SeedOverflow :
    (Params.mk 3 none).seedMaxElems < ([[], [], [], []] : SeedSeq).length ∧
    (Params.mk 3 (some 30)).seedMaxCodes = some 30 ∧ 30 < totalCodes [List.replicate 31 0#21] ∧
    (∀ q : SeedSeq, Instr.random ≠ .seed q) ∧ (answerOf (exec .random State.reset)).isSome = true ∧
    decode ⟨0x01000000#32, []⟩ = .ok (.seed []) :=
  ⟨by decide, by decide, by decide, (fun _ h => nomatch h), by decide, rfl⟩

theorem witness_BeforeSeeding :
    let fs : List Frame := [⟨0x10000000#32, []⟩, ⟨0x00000000#32, []⟩]
    let s : State := { State.reset with inputs := fs.map .frame }
    s.seeded = false ∧ s.inputs = fs.map .frame ∧ ∀ f ∈ fs, ∀ i : Instr, decode f = .ok i → needsSeeded i = true := by
  refine ⟨rfl, rfl, fun f hf i h => ?_⟩
  rcases List.mem_pair.mp hf with rfl | rfl
  · have e : decode ⟨0x10000000#32, []⟩ = .ok .random := rfl
    rw [e] at h; cases h; rfl
  · have e : decode ⟨0x00000000#32, []⟩ = .error .unassignedOpcode := rfl
    rw [e] at h; cases h

/-- A tie: `2^53 + 1` lies between `2^53`, which is chosen, and `2^53 + 2`. -/
theorem witness_Rounding :
    isF64 (2 ^ 53 + 2) ∧ 2 ^ 53 + 2 ≠ funits (rne53 (2 ^ 53 + 1) 0 0) ∧
    apart (funits (rne53 (2 ^ 53 + 1) 0 0) * 2 ^ 0) ((2 ^ 53 + 1) * 2 ^ 0) = apart ((2 ^ 53 + 2) * 2 ^ 0) ((2 ^ 53 + 1) * 2 ^ 0) :=
  ⟨⟨2 ^ 52 + 1, 1, by decide, by decide⟩, by decide +kernel, by decide +kernel⟩

/-- The largest finite value, and its pattern. -/
theorem witness_Patterns :
    2 ^ 53 - 1 < 2 ^ 53 ∧ (2 ^ 53 - 1) * 2 ^ 2045 < 2 ^ 2098 ∧ (0x7FEFFFFFFFFFFFFF#64).toNat < 2047 * 2 ^ 52 := by
  decide +kernel

/-- A word of 95_test_vectors.md section 2.3, and the words of 0 and of `1 - 2^-32`. -/
theorem witness_WordsInRange :
    isFraction 0x3FDF48547BC00000#64 2099335663#32 ∧ isFraction 0#64 0#32 ∧
    isFraction 0x3FEFFFFFFFE00000#64 0xFFFFFFFF#32 := by
  refine ⟨⟨?_, ?_⟩, ⟨?_, ?_⟩, ⟨?_, ?_⟩⟩ <;> decide +kernel

theorem witness_MashRoundFacts : 4294967295 < 2 ^ 32 ∧ 39 < 2 ^ 32 ∧ 39 ≤ 39 ∧ 0 < 2 ^ 32 := by decide

/-- Sequences that fill each capacity exactly. -/
theorem witness_SeedResult :
    ([[], [], []] : SeedSeq).length ≤ (Params.mk 3 (some 30)).seedMaxElems ∧
    (∀ m : Nat, (Params.mk 3 (some 30)).seedMaxCodes = some m → totalCodes [List.replicate 30 0#21] ≤ m) ∧
    fitsStore ⟨3, some 30⟩ [[], [], List.replicate 30 0#21] = true :=
  ⟨by decide, fun m h => by cases h; decide, by decide⟩

theorem witness_RestartResult : afterTest.seeded = true := rfl

theorem witness_SameSeedSameStream :
    fitsStore State.reset.params [[97#21]] = true ∧ fitsStore afterTest.params [[97#21]] = true ∧
    ∀ i ∈ [Instr.random, .restart, .cycle 3], needsSeeded i = true := by decide

theorem witness_RestartReplaysTheSeed :
    fitsStore State.reset.params [[97#21]] = true ∧ ∀ i ∈ [Instr.fract53, .int32, .cycled], needsSeeded i = true := by decide

theorem witness_DrawingResults : (seededAt ⟨0#32, 0#32, 0#32, 0#21⟩).seeded = true ∧ afterTest.seeded = true := ⟨rfl, rfl⟩

theorem witness_DrawingTouches : isDrawing (.cycle (-1)) = true ∧ isDrawing .fract53 = true ∧ afterTest.seeded = true := by
  decide

theorem witness_OnlySeeding :
    (nextOf (exec .restart afterTest)).isSome = true ∧ Instr.restart ≠ .seedr ∧ needsSeeded .restart = true ∧
    isDrawing .random = true ∧ (nextOf (exec .random State.reset)).isSome = true := by decide +kernel

theorem witness_CycleIsRepeatedDraws :
    afterTest.seeded = true ∧ 1 ≤ 1 ∧ 1 ≤ 2147483647 ∧ 2147483647 < 2 ^ 31 ∧ (0 : Int) < 1 ∧
    1 + 2147483646 < 2 ^ 31 := by decide

theorem witness_SmallCycles : (1 : Int) ≤ 1 ∧ (-2147483648 : Int) ≤ 1 := by decide

theorem witness_DrawIsABijection : carryOk 0#21 = true ∧ carryOk 2091638#21 = true ∧ carryOk 2091639#21 = false := by decide

theorem witness_FixedPoints : carryOk (IntWords.mk 0#32 0#32 0#32 0#21).c = true := by decide

/-- A run from an unseeded state that ends seeded: one SEED of the empty sequence. -/
theorem witness_FixedPoints_run :
    (sending ⟨0x01000000#32, []⟩ State.reset).seeded = false ∧
    (nextOf (Sys2Proof.core.run 1 (sending ⟨0x01000000#32, []⟩ State.reset))).map State.seeded = some true := by
  decide +kernel

/-- The three results after `seed "test"`, as answeredValue reads them (95_test_vectors.md section 2.5). -/
theorem witness_ReturnedValues :
    afterTest.seeded = true ∧ answeredValue (exec .random afterTest) = some 0x3FE16A5183400000#64 ∧
    answeredValue (exec .fract53 afterTest) = some 0x3FE16A518356A0D8#64 ∧
    answeredValue (exec .int32 afterTest) = some 0x41E16A5183400000#64 ∧
    answeredValue (exec .cycled afterTest) = none := by decide +kernel

theorem witness_FourDraws :
    carryOk testWords.c = true ∧ carryOk testWords.draw.c = true ∧
    ∀ k < 4, (IntWords.drawTimes (k + 1) testWords).x2 = (IntWords.drawTimes (k + 1) testWords).x2 := by decide +kernel

end Sys2Proof.Tests
end

section
/-! PROOF. When each part of the decoder answers a command, and which (30_encoding.md R69). -/

namespace Sys2Proof

/-- Code words are taken exactly when every reserved field is 0 (30_encoding.md R66). -/
theorem takeCodes_eq_ok_iff {ws : List Word} {e : Text} :
    takeCodes ws = .ok e ↔ (∀ w ∈ ws, codeRsvField w = 0#11) ∧ e = ws.map codeField := by
  induction ws generalizing e with
  | nil => simp [takeCodes, eq_comm]
  | cons w ws ih =>
    by_cases hw : codeRsvField w = 0#11
    · cases hc : takeCodes ws with
      | ok cs =>
        obtain ⟨hws, rfl⟩ := ih.mp hc
        have hall : ∀ x ∈ w :: ws, codeRsvField x = 0#11 := List.forall_mem_cons.mpr ⟨hw, hws⟩
        rw [and_iff_right hall]
        simp [takeCodes, hw, hc, eq_comm]
      | error r =>
        have hbad : ¬ ∀ x ∈ ws, codeRsvField x = 0#11 := fun h => by simp [ih.mpr ⟨h, rfl⟩] at hc
        simp [takeCodes, hw, hc, hbad]
    · simp [takeCodes, hw]

/-- One element is taken exactly when it lies within the payload, its code words are clean, and the rest is taken. -/
theorem takeElements_succ_cons_eq_ok_iff {k : Nat} {l : Word} {ws rest : List Word} {q : SeedSeq} :
    takeElements (k + 1) (l :: ws) = .ok (q, rest) ↔
      l.toNat ≤ ws.length ∧ (∀ w ∈ ws.take l.toNat, codeRsvField w = 0#11) ∧
      ∃ q', takeElements k (ws.drop l.toNat) = .ok (q', rest) ∧ q = (ws.take l.toNat).map codeField :: q' := by
  by_cases hl : ws.length < l.toNat
  · simp [takeElements, hl]
  · cases hc : takeCodes (ws.take l.toNat) with
    | error r =>
      have hbad : ¬ ∀ w ∈ ws.take l.toNat, codeRsvField w = 0#11 := fun h => by
        simp [takeCodes_eq_ok_iff.mpr ⟨h, rfl⟩] at hc
      simp only [takeElements, if_neg hl, hc, reduceCtorEq, hbad, false_and, and_false]
    | ok e =>
      obtain ⟨hclean, rfl⟩ := takeCodes_eq_ok_iff.mp hc
      cases hr : takeElements k (ws.drop l.toNat) with
      | error r => simp [takeElements, hl, hc, hr]
      | ok p =>
        simp only [takeElements, if_neg hl, hc, hr, Except.ok.injEq, Prod.mk.injEq, Nat.le_of_not_lt hl, true_and]
        exact ⟨fun ⟨hq, hrest⟩ => ⟨hclean, _, Prod.ext rfl hrest, hq.symm⟩,
          fun ⟨_, _, hp, hq⟩ => ⟨by rw [hq, hp], by rw [hp]⟩⟩

/-- The elements taken are as many as asked for, and each length fits its length word (30_encoding.md R65). -/
theorem takeElements_fits {k : Nat} {ws rest : List Word} {q : SeedSeq} (h : takeElements k ws = .ok (q, rest)) :
    q.length = k ∧ ∀ e ∈ q, e.length < 2 ^ 32 := by
  induction k generalizing ws q with
  | zero =>
    obtain ⟨rfl, -⟩ : [] = q ∧ ws = rest := by simpa [takeElements] using h
    simp
  | succ k ih =>
    cases ws with
    | nil => simp [takeElements] at h
    | cons l ws =>
      obtain ⟨hl, -, q', hq', rfl⟩ := takeElements_succ_cons_eq_ok_iff.mp h
      obtain ⟨hlen, hfit⟩ := ih hq'
      have hhead : ((ws.take l.toNat).map codeField).length < 2 ^ 32 := by
        rw [List.length_map, List.length_take_of_le hl]
        exact l.isLt
      exact ⟨by rw [List.length_cons, hlen], List.forall_mem_cons.mpr ⟨hhead, hfit⟩⟩

theorem decodeSeed_eq_ok_iff {f : Frame} {i : Instr} :
    decodeSeed f = .ok i ↔
      pField f.header = 0#1 ∧ ∃ q, takeElements (cntField f.header).toNat f.payload = .ok (q, []) ∧ i = .seed q := by
  by_cases hp : pField f.header = 0#1
  · cases ht : takeElements (cntField f.header).toNat f.payload with
    | error e => simp [decodeSeed, hp, ht]
    | ok p =>
      obtain ⟨q, rest⟩ := p
      by_cases hr : rest = []
      · simp [decodeSeed, hp, ht, hr, eq_comm]
      · simp [decodeSeed, hp, ht, hr]
  · simp [decodeSeed, hp]

theorem decodeZ_eq_ok_iff {f : Frame} {i j : Instr} :
    decodeZ i f = .ok j ↔ pField f.header = 0#1 ∧ cntField f.header = 0#16 ∧ f.payload = [] ∧ j = i := by
  unfold decodeZ
  split_ifs <;> simp_all [eq_comm]

/-- P has two values (30_encoding.md R62). -/
theorem pField_eq_one_iff {h : Word} : pField h = 1#1 ↔ pField h ≠ 0#1 := by
  generalize pField h = p
  revert p; decide

theorem decodeCycle_eq_ok_iff {f : Frame} {i : Instr} :
    decodeCycle f = .ok i ↔ cntField f.header = 0#16 ∧
      ((pField f.header = 0#1 ∧ f.payload = [] ∧ i = .cycled) ∨
        (pField f.header = 1#1 ∧ ∃ imm, f.payload = [imm] ∧ i = .cycle (immCount imm))) := by
  rw [pField_eq_one_iff]
  by_cases hc : cntField f.header = 0#16
  · by_cases hp : pField f.header = 0#1
    · by_cases hpay : f.payload = [] <;> simp [decodeCycle, hc, hp, hpay, eq_comm]
    · rcases hpay : f.payload with _ | ⟨imm, _ | ⟨w, ws⟩⟩ <;> simp [decodeCycle, hc, hp, hpay, eq_comm]
  · simp [decodeCycle, hc]

/-- The opcodes of the format Z commands other than CYCLED (30_encoding.md R68). -/
theorem exists_zCommand_iff {opc : BitVec 8} :
    (∃ i, zCommand opc = some i) ↔ opc ∈ [0x02#8, 0x03#8, 0x10#8, 0x11#8, 0x12#8] := by
  rw [← Option.isSome_iff_exists]
  revert opc; decide

/-- Opcodes 0x01 and 0x13 have their own parts of the decoder (30_encoding.md R69). -/
theorem zCommand_opcode_ne {opc : BitVec 8} {i : Instr} (h : zCommand opc = some i) : opc ≠ 0x01#8 ∧ opc ≠ 0x13#8 := by
  constructor
  · rintro rfl; cases h
  · rintro rfl; cases h

/-- A format Z command has no operand to be out of range. -/
theorem zCommand_wellFormed {opc : BitVec 8} {i : Instr} (h : zCommand opc = some i) : i.wellFormed = true := by
  unfold zCommand at h
  split_ifs at h <;> cases h <;> rfl

theorem immCount_fits (imm : Word) : cycleCountFits (immCount imm) = true := by
  have hlo : -2 ^ 31 ≤ imm.toInt := BitVec.le_toInt imm
  have hhi : imm.toInt < 2 ^ 31 := BitVec.toInt_lt
  simp only [cycleCountFits, immCount, hlo, hhi, decide_true, Bool.and_self]

/-! ### The opcode chooses the part of the decoder -/

theorem decode_of_reserved {f : Frame} (h : rsvField f.header ≠ 0#7) : decode f = .error .reservedBits := if_pos h

theorem decode_of_seedOpcode {f : Frame} (hr : rsvField f.header = 0#7) (ho : opcField f.header = 0x01#8) :
    decode f = decodeSeed f := by
  simp [decode, hr, ho]

theorem decode_of_cycleOpcode {f : Frame} (hr : rsvField f.header = 0#7) (ho : opcField f.header = 0x13#8) :
    decode f = decodeCycle f := by
  simp [decode, hr, ho]

theorem decode_of_zCommand {f : Frame} {i : Instr} (hr : rsvField f.header = 0#7)
    (hz : zCommand (opcField f.header) = some i) : decode f = decodeZ i f := by
  obtain ⟨h01, h13⟩ := zCommand_opcode_ne hz
  simp [decode, hr, h01, h13, hz]

theorem decode_of_unassigned {f : Frame} (hr : rsvField f.header = 0#7) (h01 : opcField f.header ≠ 0x01#8)
    (h13 : opcField f.header ≠ 0x13#8) (hz : zCommand (opcField f.header) = none) :
    decode f = .error .unassignedOpcode := by
  simp [decode, hr, h01, h13, hz]

/-- The four ways an opcode field can stand to the opcode map (30_encoding.md R68). -/
theorem opcode_cases (opc : BitVec 8) :
    opc = 0x01#8 ∨ opc = 0x13#8 ∨ (∃ i, zCommand opc = some i) ∨
      (opc ≠ 0x01#8 ∧ opc ≠ 0x13#8 ∧ zCommand opc = none) := by
  by_cases h01 : opc = 0x01#8
  · exact .inl h01
  by_cases h13 : opc = 0x13#8
  · exact .inr (.inl h13)
  cases hz : zCommand opc with
  | some i => exact .inr (.inr (.inl ⟨i, rfl⟩))
  | none => exact .inr (.inr (.inr ⟨h01, h13, rfl⟩))

/-- What decodes has its operands in range (30_encoding.md R67). -/
theorem decode_wellFormed {f : Frame} {i : Instr} (h : decode f = .ok i) : i.wellFormed = true := by
  by_cases hr : rsvField f.header = 0#7
  · rcases opcode_cases (opcField f.header) with ho | ho | ⟨j, hz⟩ | ⟨h01, h13, hz⟩
    · rw [decode_of_seedOpcode hr ho] at h
      obtain ⟨-, q, ht, rfl⟩ := decodeSeed_eq_ok_iff.mp h
      obtain ⟨hlen, hfit⟩ := takeElements_fits ht
      have hcount : q.length < 2 ^ 16 := hlen ▸ (cntField f.header).isLt
      simp only [Instr.wellFormed, countFits, lengthsFit, Bool.and_eq_true, List.all_eq_true, decide_eq_true_eq]
      exact ⟨hcount, hfit⟩
    · rw [decode_of_cycleOpcode hr ho] at h
      obtain ⟨-, ⟨-, -, rfl⟩ | ⟨-, imm, -, rfl⟩⟩ := decodeCycle_eq_ok_iff.mp h
      · rfl
      · exact immCount_fits imm
    · rw [decode_of_zCommand hr hz] at h
      obtain ⟨-, -, -, rfl⟩ := decodeZ_eq_ok_iff.mp h
      exact zCommand_wellFormed hz
    · rw [decode_of_unassigned hr h01 h13 hz] at h
      cases h
  · rw [decode_of_reserved hr] at h
    cases h

end Sys2Proof
end

section
/-! PROOF. A frame decodes exactly when it is not on the list of 30_encoding.md R70, and what a step does with a frame
(R60, R69, R70). -/

namespace Sys2Proof.Machine

/-! ### The shape of a SEED payload, one element at a time (30_encoding.md R65, R66) -/

theorem seedShape_zero {ws : List Word} : seedShape 0 ws ↔ ws = [] := by
  simp [seedShape]

theorem not_seedShape_succ_nil (k : Nat) : ¬ seedShape (k + 1) [] := by
  rintro ⟨blocks, hlen, -, hws⟩
  obtain ⟨b, bs, rfl⟩ := List.exists_cons_of_length_eq_add_one hlen
  simp at hws

theorem seedShape_succ_cons {k : Nat} {l : Word} {ws : List Word} :
    seedShape (k + 1) (l :: ws) ↔
      l.toNat ≤ ws.length ∧ (∀ w ∈ ws.take l.toNat, codeRsvField w = 0#11) ∧ seedShape k (ws.drop l.toNat) := by
  constructor
  · rintro ⟨blocks, hlen, hb, hws⟩
    obtain ⟨b, bs, rfl⟩ := List.exists_cons_of_length_eq_add_one hlen
    obtain ⟨⟨hlt, hclean⟩, hbs⟩ := List.forall_mem_cons.mp hb
    rw [List.flatMap_cons, List.cons_append, List.cons.injEq] at hws
    obtain ⟨rfl, rfl⟩ := hws
    have hl : (BitVec.ofNat 32 b.length).toNat = b.length := Nat.mod_eq_of_lt hlt
    rw [hl, List.take_left, List.drop_left]
    exact ⟨by simp, hclean, bs, Nat.succ.inj hlen, hbs, rfl⟩
  · rintro ⟨hl, hclean, bs, hlen, hbs, hdrop⟩
    have htake : (ws.take l.toNat).length = l.toNat := List.length_take_of_le hl
    refine ⟨ws.take l.toNat :: bs, by rw [List.length_cons, hlen], ?_, ?_⟩
    · exact List.forall_mem_cons.mpr ⟨⟨htake.trans_lt l.isLt, hclean⟩, hbs⟩
    · rw [List.flatMap_cons, ← hdrop, htake, BitVec.ofNat_toNat, BitVec.setWidth_eq, List.cons_append,
        List.take_append_drop]

/-- The decoder reads a payload to its end exactly when it has the shape of R65. -/
theorem takeElements_reads_all_iff {k : Nat} {ws : List Word} :
    (∃ q, takeElements k ws = .ok (q, [])) ↔ seedShape k ws := by
  induction k generalizing ws with
  | zero => simp [takeElements, seedShape_zero]
  | succ k ih =>
    cases ws with
    | nil => simp [takeElements, not_seedShape_succ_nil]
    | cons l ws =>
      rw [seedShape_succ_cons, ← ih]
      simp only [takeElements_succ_cons_eq_ok_iff]
      exact ⟨fun ⟨_, hl, hclean, q', hq', _⟩ => ⟨hl, hclean, q', hq'⟩,
        fun ⟨hl, hclean, q', hq'⟩ => ⟨_, hl, hclean, q', hq', rfl⟩⟩

/-! ### The list of R70, for each kind of opcode -/

theorem illegalShape_of_reserved {f : Frame} (h : rsvField f.header ≠ 0#7) : illegalShape f := .inr (.inl h)

theorem illegalShape_iff_of_seedOpcode {f : Frame} (hr : rsvField f.header = 0#7) (ho : opcField f.header = 0x01#8) :
    illegalShape f ↔ ¬ (pField f.header = 0#1 ∧ seedShape (cntField f.header).toNat f.payload) := by
  simp [illegalShape, hr, ho, pField_eq_one_iff, imp_iff_not_or]

theorem illegalShape_iff_of_cycleOpcode {f : Frame} (hr : rsvField f.header = 0#7) (ho : opcField f.header = 0x13#8) :
    illegalShape f ↔ ¬ (cntField f.header = 0#16 ∧
      ((pField f.header = 0#1 ∧ f.payload = []) ∨ (pField f.header = 1#1 ∧ f.payload.length = 1))) := by
  by_cases hp : pField f.header = 0#1 <;> simp [illegalShape, hr, ho, pField_eq_one_iff, hp, imp_iff_not_or]

theorem illegalShape_iff_of_zCommand {f : Frame} {i : Instr} (hr : rsvField f.header = 0#7)
    (hz : zCommand (opcField f.header) = some i) :
    illegalShape f ↔ ¬ (pField f.header = 0#1 ∧ cntField f.header = 0#16 ∧ f.payload = []) := by
  have ho := exists_zCommand_iff.mp ⟨i, hz⟩
  have hassigned : opcField f.header ∈ [0x01#8, 0x02#8, 0x03#8, 0x10#8, 0x11#8, 0x12#8, 0x13#8] :=
    List.mem_cons_of_mem _ (List.mem_append_left [0x13#8] ho)
  obtain ⟨h01, h13⟩ := zCommand_opcode_ne hz
  simp [illegalShape, hr, ho, hassigned, h01, h13, pField_eq_one_iff, imp_iff_not_or, -List.mem_cons]

theorem illegalShape_of_unassigned {f : Frame} (h01 : opcField f.header ≠ 0x01#8) (h13 : opcField f.header ≠ 0x13#8)
    (hz : zCommand (opcField f.header) = none) : illegalShape f := by
  have ho : opcField f.header ∉ [0x02#8, 0x03#8, 0x10#8, 0x11#8, 0x12#8] := by
    rw [← exists_zCommand_iff, hz]; exact nofun
  refine .inl fun h => ho ?_
  simpa [h01, h13] using h

/-- R70 lists exactly what R69 does not decode. -/
theorem decodes_iff_not_illegalShape {f : Frame} : (∃ i, decode f = .ok i) ↔ ¬ illegalShape f := by
  by_cases hr : rsvField f.header = 0#7
  · rcases opcode_cases (opcField f.header) with ho | ho | ⟨j, hz⟩ | ⟨h01, h13, hz⟩
    · rw [decode_of_seedOpcode hr ho, illegalShape_iff_of_seedOpcode hr ho, not_not, ← takeElements_reads_all_iff]
      simp only [decodeSeed_eq_ok_iff]
      exact ⟨fun ⟨_, hp, q, hq, _⟩ => ⟨hp, q, hq⟩, fun ⟨hp, q, hq⟩ => ⟨_, hp, q, hq, rfl⟩⟩
    · rw [decode_of_cycleOpcode hr ho, illegalShape_iff_of_cycleOpcode hr ho, not_not, List.length_eq_one_iff]
      simp only [decodeCycle_eq_ok_iff]
      constructor
      · rintro ⟨_, hc, ⟨hp, hpay, _⟩ | ⟨hp, imm, hpay, _⟩⟩
        · exact ⟨hc, .inl ⟨hp, hpay⟩⟩
        · exact ⟨hc, .inr ⟨hp, imm, hpay⟩⟩
      · rintro ⟨hc, ⟨hp, hpay⟩ | ⟨hp, imm, hpay⟩⟩
        · exact ⟨_, hc, .inl ⟨hp, hpay, rfl⟩⟩
        · exact ⟨_, hc, .inr ⟨hp, imm, hpay, rfl⟩⟩
    · rw [decode_of_zCommand hr hz, illegalShape_iff_of_zCommand hr hz, not_not]
      simp only [decodeZ_eq_ok_iff]
      exact ⟨fun ⟨_, hp, hc, hpay, _⟩ => ⟨hp, hc, hpay⟩, fun ⟨hp, hc, hpay⟩ => ⟨_, hp, hc, hpay, rfl⟩⟩
    · simp [decode_of_unassigned hr h01 h13 hz, illegalShape_of_unassigned h01 h13 hz]
  · simp [decode_of_reserved hr, illegalShape_of_reserved hr]

theorem exists_decode_error_of_illegalShape {f : Frame} (h : illegalShape f) : ∃ e, decode f = .error e := by
  cases hd : decode f with
  | error e => exact ⟨e, rfl⟩
  | ok i => exact absurd h (decodes_iff_not_illegalShape.mp ⟨i, hd⟩)

/-! ### The step on a frame -/

theorem step_of_decode_ok {s : State} {f : Frame} {rest : List Input} {i : Instr} (hs : s.inputs = .frame f :: rest)
    (hd : decode f = .ok i) : step s = exec i { s with inputs := rest } := by
  rw [step_of_frame hs, runFrame_of_ok hd]

theorem step_of_decode_error {s : State} {f : Frame} {rest : List Input} {e : DecodeError}
    (hs : s.inputs = .frame f :: rest) (hd : decode f = .error e) :
    step s = .next (respond (faultFrame .illegalCommand) { s with inputs := rest }) := by
  rw [step_of_frame hs, runFrame_of_error hd]

/-- Settles O7: the port is read first, then the decoder chooses the command. -/
theorem stepRunsTheDecodedCommand : Obligations.StepRunsTheDecodedCommand :=
  fun _ _ _ _ hs hd => step_of_decode_ok hs hd

/-- Settles O3: R70's list is the complement of what R69 decodes, opcode by opcode; SEED by induction over its elements. -/
theorem illegalFramesAreThoseListed : Obligations.IllegalFramesAreThoseListed := by
  intro s f rest hs
  constructor
  · intro hill
    obtain ⟨e, hd⟩ := exists_decode_error_of_illegalShape hill
    rw [step_of_decode_error hs hd, faultFrame_illegalCommand]
    rfl
  · intro hlegal
    obtain ⟨i, hd⟩ := decodes_iff_not_illegalShape.mpr hlegal
    exact ⟨i, decode_wellFormed hd, hd, step_of_decode_ok hs hd⟩

end Sys2Proof.Machine
end

section
/-! PROOF. What answers a frame, and why: the status word of each response (30_encoding.md R72, R73, 60_exceptions.md R162
to R164). -/

namespace Sys2Proof.Machine

/-! ### The fields of the status word (30_encoding.md R72) -/

/-- The status word as a number. -/
theorem statusWord_toNat (status : BitVec 8) (v : Bool) :
    (statusWord status v).toNat = v.toNat * 2 ^ 8 + status.toNat := by
  have h : (statusWord status v).toNat = (0#23 ++ BitVec.ofBool v ++ status).toNat := rfl
  rw [h, Laws.toNat_append_eq, Laws.toNat_append_eq, BitVec.toNat_ofBool, BitVec.toNat_ofNat]
  omega

@[simp] theorem statusWord_status (status : BitVec 8) (v : Bool) : (statusWord status v).extractLsb' 0 8 = status := by
  apply BitVec.eq_of_toNat_eq
  have hstatus := status.isLt
  rw [BitVec.extractLsb'_toNat, statusWord_toNat, Nat.shiftRight_zero]
  omega

@[simp] theorem statusWord_valueBit (status : BitVec 8) (v : Bool) :
    (statusWord status v).extractLsb' 8 1 = BitVec.ofBool v := by
  apply BitVec.eq_of_toNat_eq
  have hstatus := status.isLt
  have hv := v.toNat_le
  rw [BitVec.extractLsb'_toNat, statusWord_toNat, Nat.shiftRight_eq_div_pow, BitVec.toNat_ofBool]
  omega

@[simp] theorem statusWord_reserved (status : BitVec 8) (v : Bool) :
    (statusWord status v).extractLsb' 9 23 = 0#23 := by
  apply BitVec.eq_of_toNat_eq
  have hstatus := status.isLt
  have hv := v.toNat_le
  rw [BitVec.extractLsb'_toNat, statusWord_toNat, Nat.shiftRight_eq_div_pow, BitVec.toNat_ofNat]
  omega

@[simp] theorem okFrame_header : okFrame.header = statusWord 0#8 false := rfl
@[simp] theorem okFrame_payload : okFrame.payload = [] := rfl
@[simp] theorem valueFrame_header (res : BitVec 64) : (valueFrame res).header = statusWord 0#8 true := rfl
@[simp] theorem valueFrame_payload (res : BitVec 64) :
    (valueFrame res).payload = [res.extractLsb' 0 32, res.extractLsb' 32 32] := rfl
@[simp] theorem faultFrame_header (e : Fault) : (faultFrame e).header = statusWord (faultCode e) false := rfl
@[simp] theorem faultFrame_payload (e : Fault) : (faultFrame e).payload = [] := rfl
@[simp] theorem faultCode_illegalCommand : faultCode .illegalCommand = 1#8 := rfl
@[simp] theorem faultCode_unseeded : faultCode .unseeded = 2#8 := rfl
@[simp] theorem faultCode_seedOverflow : faultCode .seedOverflow = 3#8 := rfl

/-! ### Which response answers a frame -/

/-- Neither cause of a fault of a decoded command is there (60_exceptions.md R163, R164). -/
structure Accepts (s : State) (i : Instr) : Prop where
  seeded : needsSeeded i = true → s.seeded = true
  fits : ∀ q, i = .seed q → fitsStore s.params q = true

/-- `Answers s d r`: from the state s, the response r answers a frame whose Decode is d (30_encoding.md R72, 60_exceptions.md
R162 to R164). Tied to the model by `step_answers`. -/
inductive Answers (s : State) : Except DecodeError Instr → Frame → Prop where
  | illegal (e : DecodeError) : Answers s (.error e) (faultFrame .illegalCommand)
  | unseeded {i : Instr} (hneeds : needsSeeded i = true) (hs : s.seeded = false) :
      Answers s (.ok i) (faultFrame .unseeded)
  | overflow {q : SeedSeq} (hfits : fitsStore s.params q = false) : Answers s (.ok (.seed q)) (faultFrame .seedOverflow)
  | done {i : Instr} (hacc : Accepts s i) (hv : returnsValue i = false) : Answers s (.ok i) okFrame
  | value {i : Instr} (res : BitVec 64) (hacc : Accepts s i) (hv : returnsValue i = true) :
      Answers s (.ok i) (valueFrame res)

theorem Accepts.needsSeeded_eq_false {s : State} {i : Instr} (h : Accepts s i) (hs : s.seeded = false) :
    needsSeeded i = false :=
  Bool.eq_false_iff.mpr fun hn => Bool.false_ne_true (hs.symm.trans (h.seeded hn))

theorem Accepts.of_drawing {s : State} {i : Instr} (hd : isDrawing i = true) (hs : s.seeded = true) : Accepts s i :=
  ⟨fun _ => hs, fun q hq => by rw [hq] at hd; cases hd⟩

/-- A command adds one response to RSP, the one its cause asks for. -/
theorem exec_answers {i : Instr} {s t : State} (h : exec i s = .next t) :
    ∃ r, t.rsp = s.rsp ++ [r] ∧ Answers s (.ok i) r := by
  rcases exec_cases i s with ⟨hneeds, hs, he⟩ | ⟨q, rfl, hfits, he⟩ | ⟨q, rfl, hfits, he⟩ | ⟨rfl, he⟩ | ⟨rfl, hs, he⟩ |
    ⟨k, hd, hv, hs, he⟩ | ⟨k, res, hd, hv, hs, he⟩ <;> obtain rfl := Host.Outcome.next.inj (he.symm.trans h)
  · exact ⟨_, respond_rsp _ _, .unseeded hneeds hs⟩
  · exact ⟨_, respond_rsp _ _, .overflow hfits⟩
  · exact ⟨_, respond_rsp _ _, .done ⟨nofun, fun _ hq => Instr.seed.inj hq ▸ hfits⟩ rfl⟩
  · obtain ⟨-, -, hrsp, -⟩ := entropySeed_keeps s
    exact ⟨_, by simp [hrsp], .done ⟨nofun, nofun⟩ rfl⟩
  · exact ⟨_, respond_rsp _ _, .done ⟨fun _ => hs, nofun⟩ rfl⟩
  · obtain ⟨-, -, -, -, -, hrsp, -⟩ := drawTimes_keeps k s
    exact ⟨_, by simp [hrsp], .done (Accepts.of_drawing hd hs) hv⟩
  · obtain ⟨-, -, -, -, -, hrsp, -⟩ := drawTimes_keeps k s
    exact ⟨_, by simp [hrsp], .value res (Accepts.of_drawing hd hs) hv⟩

theorem Answers.of_inputs {s : State} {rest : List Input} {d : Except DecodeError Instr} {r : Frame}
    (h : Answers { s with inputs := rest } d r) : Answers s d r := by
  cases h with
  | illegal e => exact .illegal e
  | unseeded hneeds hs => exact .unseeded hneeds hs
  | overflow hfits => exact .overflow hfits
  | done hacc hv => exact .done ⟨hacc.seeded, hacc.fits⟩ hv
  | value res hacc hv => exact .value res ⟨hacc.seeded, hacc.fits⟩ hv

/-- A step on a frame adds one response to RSP, the one its cause asks for (30_encoding.md R60). -/
theorem step_answers {s t : State} {f : Frame} {rest : List Input} (hs : s.inputs = .frame f :: rest)
    (h : step s = .next t) : ∃ r, t.rsp = s.rsp ++ [r] ∧ Answers s (decode f) r := by
  cases hd : decode f with
  | error e =>
    rw [step_of_decode_error hs hd] at h
    obtain rfl := Host.Outcome.next.inj h
    exact ⟨_, respond_rsp _ _, .illegal e⟩
  | ok i =>
    rw [step_of_decode_ok hs hd] at h
    obtain ⟨r, hrsp, hr⟩ := exec_answers h
    exact ⟨r, hrsp, hr.of_inputs⟩

/-! ### What the status word tells of the cause -/

/-- A sequence is too large when it exceeds one of the two capacities (60_exceptions.md R164). -/
theorem fitsStore_eq_false_iff {p : Params} {q : SeedSeq} :
    fitsStore p q = false ↔ p.seedMaxElems < q.length ∨ ∃ m, p.seedMaxCodes = some m ∧ m < totalCodes q := by
  cases hm : p.seedMaxCodes <;> simp [fitsStore, hm, imp_iff_not_or]

section StatusWord

variable {s : State} {d : Except DecodeError Instr} {r : Frame}

theorem Answers.status_lt_four (h : Answers s d r) :
    r.header.extractLsb' 0 8 = 0#8 ∨ r.header.extractLsb' 0 8 = 1#8 ∨ r.header.extractLsb' 0 8 = 2#8 ∨
      r.header.extractLsb' 0 8 = 3#8 := by
  cases h <;> simp

theorem Answers.status_eq_one_iff (h : Answers s d r) : r.header.extractLsb' 0 8 = 1#8 ↔ ∃ e, d = .error e := by
  cases h <;> simp

theorem Answers.status_eq_two_iff (h : Answers s d r) :
    r.header.extractLsb' 0 8 = 2#8 ↔ s.seeded = false ∧ ∃ i, d = .ok i ∧ needsSeeded i = true := by
  cases h with
  | illegal e => simp
  | unseeded hneeds hs => simp [hneeds, hs]
  | overflow hfits => simp [needsSeeded]
  | done hacc hv => simpa using hacc.needsSeeded_eq_false
  | value res hacc hv => simpa using hacc.needsSeeded_eq_false

theorem Answers.status_eq_three_iff (h : Answers s d r) :
    r.header.extractLsb' 0 8 = 3#8 ↔ ∃ q, d = .ok (.seed q) ∧ fitsStore s.params q = false := by
  cases h with
  | illegal e => simp
  | @unseeded i hneeds hs =>
    have hne : ∀ q, i ≠ .seed q := by rintro q rfl; cases hneeds
    simp [hne]
  | overflow hfits => simp [hfits]
  | done hacc hv => simpa using hacc.fits
  | value res hacc hv => simpa using hacc.fits

theorem Answers.reserved_eq_zero (h : Answers s d r) : r.header.extractLsb' 9 23 = 0#23 := by
  cases h <;> simp

theorem Answers.valueBit_eq_one_iff (h : Answers s d r) :
    r.header.extractLsb' 8 1 = 1#1 ↔ r.header.extractLsb' 0 8 = 0#8 ∧ ∃ i, d = .ok i ∧ returnsValue i = true := by
  cases h with
  | illegal e => simp
  | unseeded hneeds hs => simp
  | overflow hfits => simp
  | done hacc hv => simp [hv]
  | value res hacc hv => simp [hv]

theorem Answers.payload_length (h : Answers s d r) :
    r.payload.length = if r.header.extractLsb' 8 1 = 1#1 then 2 else 0 := by
  cases h <;> simp

end StatusWord

/-- Settles O17: each response of `Answers` carries its own code, and the causes exclude each other. -/
theorem statusCodeTellsTheCause : Obligations.StatusCodeTellsTheCause := by
  intro s t f rest hs h
  obtain ⟨r, hrsp, hr⟩ := step_answers hs h
  simp only [← fitsStore_eq_false_iff]
  exact ⟨r, hrsp, hr.status_lt_four, hr.status_eq_one_iff, hr.status_eq_two_iff, hr.status_eq_three_iff⟩

/-- Settles O18: a step on a frame adds one response, and every response of `Answers` has the shape of R72. -/
theorem oneResponsePerFrame : Obligations.OneResponsePerFrame := by
  intro s t f rest hs h
  obtain ⟨r, hrsp, hr⟩ := step_answers hs h
  exact ⟨r, hrsp, hr.reserved_eq_zero, hr.valueBit_eq_one_iff, hr.payload_length⟩

end Sys2Proof.Machine
end

section
/-! PROOF. The decimal text of an entropy word (41_init.md R114): the model's loop lists the library's base ten digits,
highest first, so what holds of `Nat.digits` holds of the text. -/

namespace Sys2Proof.Machine

/-- The code of a decimal digit, as the loop of Dec writes it; `decDigits_eq` ties it to the model. -/
def digitCode (x : Nat) : Code := BitVec.ofNat 21 (48 + x)

theorem digitCode_toNat {x : Nat} (hx : x < 10) : (digitCode x).toNat = 48 + x := by
  rw [digitCode, BitVec.toNat_ofNat]
  omega

/-- With enough rounds for n, the loop of Dec puts the digits of n, highest first, before the text it began with. -/
theorem decDigits_eq {k n : Nat} (hn : n < 10 ^ k) (acc : Text) :
    decDigits k n acc = (Nat.digits 10 n).reverse.map digitCode ++ acc := by
  induction k generalizing n acc with
  | zero =>
    obtain rfl : n = 0 := by simpa using hn
    simp [decDigits]
  | succ k ih =>
    by_cases h0 : n = 0
    · simp [decDigits, h0]
    · have hdiv : n / 10 < 10 ^ k := by rw [pow_succ] at hn; omega
      have hdigits : Nat.digits 10 n = n % 10 :: Nat.digits 10 (n / 10) :=
        Nat.digits_def' (by decide) (Nat.pos_of_ne_zero h0)
      rw [decDigits, if_neg h0, ih hdiv, hdigits]
      simp [digitCode]

theorem decText_zero : decText 0#32 = [48#21] := rfl

/-- Ten rounds are enough for every word, so Dec of a word that is not 0 lists its digits. -/
theorem decText_of_ne_zero {w : Word} (hw : w ≠ 0#32) :
    decText w = (Nat.digits 10 w.toNat).reverse.map digitCode := by
  have hlt : w.toNat < 10 ^ 10 := w.isLt.trans (by decide)
  rw [decText, if_neg (show ¬w = 0 from hw), decDigits_eq hlt, List.append_nil]

/-- Reading a text highest digit first is Horner's rule, which `Nat.ofDigits` takes from the other end. -/
theorem decText_read (w : Word) : (decText w).foldl (fun a d => a * 10 + (d.toNat - 48)) 0 = w.toNat := by
  by_cases hw : w = 0#32
  · subst hw; rfl
  · have hstep : ∀ x ∈ Nat.digits 10 w.toNat, ∀ a : Nat, a * 10 + ((digitCode x).toNat - 48) = x + 10 * a := by
      intro x hx a
      rw [digitCode_toNat (Nat.digits_lt_base (by decide) hx)]
      omega
    rw [decText_of_ne_zero hw, List.foldl_map, List.foldl_reverse, List.foldr_ext _ _ _ hstep]
    exact (Nat.ofDigits_eq_foldr 10 _).symm.trans (Nat.ofDigits_digits 10 w.toNat)

theorem decText_length_pos (w : Word) : 1 ≤ (decText w).length := by
  by_cases hw : w = 0#32
  · subst hw; decide
  · have hne := Nat.digits_ne_nil_iff_ne_zero (b := 10).mpr (BitVec.toNat_pos_of_ne_zero hw).ne'
    rw [decText_of_ne_zero hw, List.length_map, List.length_reverse]
    exact List.length_pos_iff.mpr hne

theorem decText_codes (w : Word) : ∀ d ∈ decText w, 48 ≤ d.toNat ∧ d.toNat ≤ 57 := by
  intro d hd
  by_cases hw : w = 0#32
  · subst hw
    obtain rfl : d = 48#21 := by simpa [decText_zero] using hd
    decide
  · rw [decText_of_ne_zero hw] at hd
    obtain ⟨x, hx, rfl⟩ := List.mem_map.mp hd
    have hx10 : x < 10 := Nat.digits_lt_base (by decide) (List.mem_reverse.mp hx)
    rw [digitCode_toNat hx10]
    omega

/-- The first code is that of the highest digit, which is not 0 in a number that is not 0. -/
theorem decText_head_eq_zero {w : Word} (h : (decText w).head? = some 48#21) : w = 0#32 := by
  by_contra hw
  have hnat := (BitVec.toNat_pos_of_ne_zero hw).ne'
  have hne := Nat.digits_ne_nil_iff_ne_zero (b := 10).mpr hnat
  have htop : (Nat.digits 10 w.toNat).getLast hne < 10 := Nat.digits_lt_base (by decide) (List.getLast_mem hne)
  rw [decText_of_ne_zero hw, List.head?_map, List.head?_reverse, List.getLast?_eq_some_getLast hne, Option.map_some,
    Option.some_inj] at h
  have hcode := congrArg BitVec.toNat h
  rw [digitCode_toNat htop] at hcode
  exact Nat.getLast_digit_ne_zero 10 hnat (Nat.add_left_cancel hcode)

/-- Settles O33: what `Nat.digits` says of a number's digits, read off the text of the word; the examples by evaluation. -/
theorem entropyWordText : Obligations.EntropyWordText := by
  refine ⟨fun w => ⟨decText_read w, decText_length_pos w, decText_length_le w, decText_codes w, fun h => ?_⟩,
    decText_zero, by decide, by decide, by decide⟩
  obtain rfl := decText_head_eq_zero h
  exact ⟨rfl, decText_zero⟩

end Sys2Proof.Machine
end

section
/-! PROOF. The three faults (60_exceptions.md R162 to R165): what raises each, and that a fault changes nothing but RSP. -/

namespace Sys2Proof.Machine

section Answer

variable {s t : State} {r : Frame}

/-- A response that was added to RSP is the one its cause asks for. -/
theorem Answers.of_exec {i : Instr} (h : exec i s = .next t) (hrsp : t.rsp = s.rsp ++ [r]) : Answers s (.ok i) r := by
  obtain ⟨r', hrsp', hr⟩ := exec_answers h
  obtain rfl : r' = r := by simpa [hrsp'] using hrsp
  exact hr

theorem Answers.of_step {f : Frame} {rest : List Input} (hs : s.inputs = .frame f :: rest) (h : step s = .next t)
    (hrsp : t.rsp = s.rsp ++ [r]) : Answers s (decode f) r := by
  obtain ⟨r', hrsp', hr⟩ := step_answers hs h
  obtain rfl : r' = r := by simpa [hrsp'] using hrsp
  exact hr

end Answer

/-! ### What each fault leaves -/

/-- The commands of R163 are those whose first line is the check of SEEDED. -/
theorem exec_eq_whenSeeded {i : Instr} (h : needsSeeded i = true) : ∃ body, ∀ s, exec i s = whenSeeded body s := by
  cases i with
  | seed q => cases h
  | seedr => cases h
  | restart | random | fract53 | int32 | cycle n | cycled => exact ⟨_, fun _ => rfl⟩

theorem exec_of_unseeded {i : Instr} {s : State} (hneeds : needsSeeded i = true) (hs : s.seeded = false) :
    exec i s = .next (respond (faultFrame .unseeded) s) := by
  obtain ⟨body, hbody⟩ := exec_eq_whenSeeded hneeds
  rw [hbody, whenSeeded_false hs]

theorem exec_seed_of_overflow {q : SeedSeq} {s : State} (h : fitsStore s.params q = false) :
    exec (.seed q) s = .next (respond (faultFrame .seedOverflow) s) := execSeed_of_overflow h

/-- The response of a fault is one word, its code (60_exceptions.md R161, R165). -/
theorem faultFrame_header_cases (e : Fault) :
    (faultFrame e).header = 1#32 ∨ (faultFrame e).header = 2#32 ∨ (faultFrame e).header = 3#32 := by
  cases e <;> decide

/-- A step whose response has a STATUS other than OK took a fault, and taking a fault only responds (60_exceptions.md
R165). -/
theorem step_eq_respond_faultFrame {s t : State} {f r : Frame} {rest : List Input} (hs : s.inputs = .frame f :: rest)
    (h : step s = .next t) (hrsp : t.rsp = s.rsp ++ [r]) (hst : r.header.extractLsb' 0 8 ≠ 0#8) :
    ∃ e, r = faultFrame e ∧ t = respond (faultFrame e) { s with inputs := rest } := by
  have hr := Answers.of_step hs h hrsp
  generalize hd : decode f = d at hr
  cases hr with
  | illegal e => exact ⟨_, rfl, Host.Outcome.next.inj (h.symm.trans (step_of_decode_error hs hd))⟩
  | unseeded hneeds hun =>
    have hfault := (step_of_decode_ok hs hd).trans (exec_of_unseeded hneeds hun)
    exact ⟨_, rfl, Host.Outcome.next.inj (h.symm.trans hfault)⟩
  | overflow hfits =>
    have hfault := (step_of_decode_ok hs hd).trans (exec_seed_of_overflow hfits)
    exact ⟨_, rfl, Host.Outcome.next.inj (h.symm.trans hfault)⟩
  | done hacc hv => exact absurd (by simp) hst
  | value res hacc hv => exact absurd (by simp) hst

/-! ### SEEDED stays 1 until RESET (10_state.md R29, 60_exceptions.md R163) -/

theorem exec_keeps_seeded {i : Instr} {s t : State} (hs : s.seeded = true) (h : exec i s = .next t) : t.seeded = true := by
  rcases exec_cases i s with ⟨-, -, he⟩ | ⟨q, -, -, he⟩ | ⟨q, -, -, he⟩ | ⟨-, he⟩ | ⟨-, -, he⟩ | ⟨k, -, -, -, he⟩ |
    ⟨k, res, -, -, -, he⟩ <;> obtain rfl := Host.Outcome.next.inj (he.symm.trans h)
  · exact hs
  · exact hs
  · rfl
  · rfl
  · exact hs
  · obtain ⟨-, -, hseeded, -⟩ := drawTimes_keeps k s
    exact hseeded.trans hs
  · obtain ⟨-, -, hseeded, -⟩ := drawTimes_keeps k s
    exact hseeded.trans hs

theorem step_of_idle {s : State} (h : s.inputs = []) : step s = .next s := by
  rw [step, takeInput_nil h]

theorem step_keeps_seeded {s t : State} (hs : s.seeded = true) (hreset : s.inputs.head? ≠ some .reset)
    (h : step s = .next t) : t.seeded = true := by
  rcases hin : s.inputs with _ | ⟨f | _, rest⟩
  · obtain rfl := Host.Outcome.next.inj ((step_of_idle hin).symm.trans h)
    exact hs
  · cases hd : decode f with
    | error e =>
      obtain rfl := Host.Outcome.next.inj ((step_of_decode_error hin hd).symm.trans h)
      exact hs
    | ok i =>
      rw [step_of_decode_ok hin hd] at h
      exact exec_keeps_seeded (s := { s with inputs := rest }) hs h
  · exact absurd (by rw [hin]; rfl) hreset

/-- CNT has 16 bits, so no frame carries more elements than the default SEED_MAX_ELEMS (60_exceptions.md R164). -/
theorem decoded_seed_fits_default {f : Frame} {q : SeedSeq} (h : decode f = .ok (.seed q)) :
    fitsStore Params.default q = true := by
  have hwf := decode_wellFormed h
  simp only [Instr.wellFormed, countFits, Bool.and_eq_true, decide_eq_true_eq] at hwf
  obtain ⟨hcount, -⟩ := hwf
  have hmax : q.length ≤ 65535 := Nat.le_of_lt_succ hcount
  simp [fitsStore, Params.default, hmax]

/-! ### The statements -/

/-- Settles O9: a frame that does not decode raises IllegalCommand, which only responds; the eight examples are evaluated. -/
theorem malformedFrameAnswersIllegalCommand : Obligations.MalformedFrameAnswersIllegalCommand := by
  constructor
  · intro s f rest e hs hd
    rw [step_of_decode_error hs hd, faultFrame_illegalCommand]
    rfl
  · simp only [List.forall_mem_cons]
    exact ⟨⟨.unassignedOpcode, rfl⟩, ⟨.unassignedOpcode, rfl⟩, ⟨.countField, rfl⟩, ⟨.payloadLength, rfl⟩,
      ⟨.payloadLength, rfl⟩, ⟨.codeReservedBits, rfl⟩, ⟨.lengthWordMissing, rfl⟩, ⟨.presenceBit, rfl⟩, nofun⟩

/-- Settles O19: the response names the fault that was taken, and `respond` is all that taking it does. -/
theorem faultsChangeNothing : Obligations.FaultsChangeNothing := by
  intro s t f r rest hs h hrsp hst
  obtain ⟨e, rfl, rfl⟩ := step_eq_respond_faultFrame hs h hrsp hst
  exact ⟨faultFrame_payload e, faultFrame_header_cases e, rfl⟩

/-- Settles O20: the check of SEEDED is the one cause of STATUS 2, and only RESET clears SEEDED. -/
theorem unseededFault : Obligations.UnseededFault := by
  refine ⟨fun i s hneeds hs => ?_, fun i s t r hno h hrsp htwo => ?_, fun s t hs hreset h => step_keeps_seeded hs hreset h⟩
  · rw [exec_of_unseeded hneeds hs, faultFrame_unseeded]
    rfl
  · obtain ⟨hs, j, hj, hneeds⟩ := (Answers.of_exec h hrsp).status_eq_two_iff.mp htwo
    obtain rfl := Except.ok.inj hj
    simp [hs, hneeds] at hno

/-- Settles O21: the capacity check of SEED is the one cause of STATUS 3, and what CNT can count fits the default
capacities. -/
theorem seedOverflowFault : Obligations.SeedOverflowFault := by
  refine ⟨fun q s hover => ?_, fun i s t r hno h hrsp hthree => ?_, fun f q hd => decoded_seed_fits_default hd⟩
  · rw [exec_seed_of_overflow (fitsStore_eq_false_iff.mpr hover), faultFrame_seedOverflow]
    rfl
  · obtain ⟨q, hq, -⟩ := (Answers.of_exec h hrsp).status_eq_three_iff.mp hthree
    exact hno q (Except.ok.inj hq)

end Sys2Proof.Machine
end

section
/-! PROOF. Two runs side by side: blocks that differ only in what SEEDED = 0 leaves unspecified go on so, and a command that
seeds makes them equal (70_reset_and_hazards.md R190, R191). -/

namespace Sys2Proof.Machine

section Pair

variable {s t : State}

/-! ### What both blocks share -/

theorem sameButUnspecified.refl (s : State) : sameButUnspecified s s := ⟨rfl, fun _ => rfl⟩

theorem sameButUnspecified.seeded_eq (h : sameButUnspecified s t) : t.seeded = s.seeded := by rw [h.1]

theorem sameButUnspecified.params_eq (h : sameButUnspecified s t) : t.params = s.params := by rw [h.1]

theorem sameButUnspecified.inputs_eq (h : sameButUnspecified s t) : t.inputs = s.inputs := by rw [h.1]

theorem sameButUnspecified.ent_eq (h : sameButUnspecified s t) : t.ent = s.ent := by rw [h.1]

theorem sameButUnspecified.entFree_eq (h : sameButUnspecified s t) : t.entFree = s.entFree := by rw [h.1]

/-! ### An operation that neither reads nor writes an unspecified register keeps the relation -/

theorem sameButUnspecified.withInputs (h : sameButUnspecified s t) (rest : List Input) :
    sameButUnspecified { s with inputs := rest } { t with inputs := rest } :=
  ⟨congrArg (fun u : State => { u with inputs := rest }) h.1, fun hs => by rw [h.2 hs]⟩

theorem sameButUnspecified.withEntropy (h : sameButUnspecified s t) (e : List Word) (k : Nat) :
    sameButUnspecified { s with ent := e, entFree := k } { t with ent := e, entFree := k } :=
  ⟨congrArg (fun u : State => { u with ent := e, entFree := k }) h.1, fun hs => by rw [h.2 hs]⟩

theorem sameButUnspecified.respond (h : sameButUnspecified s t) (f : Frame) :
    sameButUnspecified (respond f s) (respond f t) :=
  ⟨congrArg (Machine.respond f) h.1, fun hs => by rw [h.2 hs]⟩

/-- ENTROPY answers both blocks the same word (20_memory.md R46). -/
theorem sameButUnspecified.entropy (h : sameButUnspecified s t) :
    (entropy t).1 = (entropy s).1 ∧ sameButUnspecified (entropy s).2 (entropy t).2 := by
  unfold Machine.entropy
  rw [h.ent_eq, h.entFree_eq]
  cases s.ent with
  | nil => exact ⟨rfl, h.withEntropy [] (s.entFree + 1)⟩
  | cons w ws => exact ⟨rfl, h.withEntropy ws s.entFree⟩

theorem sameButUnspecified.entropySeed (h : sameButUnspecified s t) :
    (entropySeed t).1 = (entropySeed s).1 ∧ sameButUnspecified (entropySeed s).2 (entropySeed t).2 := by
  obtain ⟨hw0, h0⟩ := h.entropy
  obtain ⟨hw1, h1⟩ := h0.entropy
  obtain ⟨hw2, h2⟩ := h1.entropy
  exact ⟨by simp only [Machine.entropySeed, hw0, hw1, hw2], h2⟩

/-! ### An operation that overwrites every unspecified register makes the blocks equal -/

theorem sameButUnspecified.takeReset_eq (h : sameButUnspecified s t) : takeReset t = takeReset s := by
  rw [h.1]; rfl

theorem sameButUnspecified.storeAndInit_eq (h : sameButUnspecified s t) (q : SeedSeq) :
    storeAndInit q t = storeAndInit q s := by
  rw [h.1]; rfl

theorem sameButUnspecified.execSeed_eq (h : sameButUnspecified s t) {q : SeedSeq} (hfits : fitsStore s.params q = true) :
    execSeed q t = execSeed q s := by
  rw [execSeed, execSeed, h.params_eq, if_pos hfits, if_pos hfits, h.storeAndInit_eq]

theorem sameButUnspecified.execSeedr_eq (h : sameButUnspecified s t) : execSeedr t = execSeedr s := by
  obtain ⟨hq, hnext⟩ := h.entropySeed
  simp only [execSeedr, hq, hnext.storeAndInit_eq]

/-! ### One command, one step, any number of steps -/

theorem exec_next (i : Instr) (s : State) : ∃ s', exec i s = .next s' := by
  rcases exec_cases i s with ⟨-, -, he⟩ | ⟨q, -, -, he⟩ | ⟨q, -, -, he⟩ | ⟨-, he⟩ | ⟨-, -, he⟩ | ⟨k, -, -, -, he⟩ |
    ⟨k, res, -, -, -, he⟩ <;> exact ⟨_, he⟩

/-- Every command answers both blocks alike: while SEEDED = 0 it faults without reading them, or it seeds and overwrites
them. -/
theorem sameButUnspecified.exec (h : sameButUnspecified s t) (i : Instr) :
    ∃ s' t', exec i s = .next s' ∧ exec i t = .next t' ∧ sameButUnspecified s' t' := by
  cases hs : s.seeded with
  | true =>
    obtain rfl := h.2 hs
    obtain ⟨t', ht'⟩ := exec_next i t
    exact ⟨t', t', ht', ht', .refl t'⟩
  | false =>
    have ht : t.seeded = false := h.seeded_eq.trans hs
    cases i with
    | seed q =>
      cases hfits : fitsStore s.params q with
      | true => exact ⟨_, _, execSeed_of_fits hfits, (h.execSeed_eq hfits).trans (execSeed_of_fits hfits), .refl _⟩
      | false =>
        have hfits' : fitsStore t.params q = false := by rw [h.params_eq, hfits]
        exact ⟨_, _, execSeed_of_overflow hfits, execSeed_of_overflow hfits', h.respond _⟩
    | seedr => exact ⟨_, _, rfl, h.execSeedr_eq, .refl _⟩
    | restart | random | fract53 | int32 | cycle n | cycled =>
      exact ⟨_, _, exec_of_unseeded rfl hs, exec_of_unseeded rfl ht, h.respond _⟩

theorem sameButUnspecified.step (h : sameButUnspecified s t) :
    ∃ s' t', step s = .next s' ∧ step t = .next t' ∧ sameButUnspecified s' t' := by
  rcases hin : s.inputs with _ | ⟨f | _, rest⟩
  · exact ⟨s, t, step_of_idle hin, step_of_idle (h.inputs_eq.trans hin), h⟩
  · have hrest := h.withInputs rest
    rw [step_of_frame hin, step_of_frame (h.inputs_eq.trans hin)]
    cases hd : decode f with
    | error e =>
      rw [runFrame_of_error hd, runFrame_of_error hd]
      exact ⟨_, _, rfl, rfl, hrest.respond _⟩
    | ok i =>
      rw [runFrame_of_ok hd, runFrame_of_ok hd]
      exact hrest.exec i
  · rw [step_of_reset hin, step_of_reset (h.inputs_eq.trans hin), (h.withInputs rest).takeReset_eq]
    exact ⟨_, _, rfl, rfl, .refl _⟩

end Pair

theorem run_succ_of_step {M : Host.Core} {s s' : M.State} (h : M.step s = .next s') (k : Nat) :
    M.run (k + 1) s = M.run k s' := by
  rw [Host.Core.run, h]

/-- Settles O16: every step keeps the two blocks related, so by induction on the number of steps every run does. -/
theorem unspecifiedContentIsNeverSeen : Obligations.UnspecifiedContentIsNeverSeen := by
  intro k
  induction k with
  | zero =>
    intro s t s' h hrun
    obtain rfl := Host.Outcome.next.inj hrun
    exact ⟨t, rfl, h⟩
  | succ k ih =>
    intro s t s' h hrun
    obtain ⟨s₁, t₁, hs, ht, h₁⟩ := h.step
    rw [run_succ_of_step (M := Sys2Proof.core) hs] at hrun
    rw [run_succ_of_step (M := Sys2Proof.core) ht]
    exact ih s₁ t₁ s' h₁ hrun

end Sys2Proof.Machine
end

section
/-! PROOF. The encoder and the decoder undo each other (30_encoding.md R62 to R69): field by field for the header, code word
by code word and element by element for a SEED payload. -/

namespace Sys2Proof

open Laws (headerWord_toNat opcField_headerWord rsvField_headerWord pField_headerWord cntField_headerWord)

/-! ### One word -/

/-- A header whose reserved field is 0 is put together again from its other fields (30_encoding.md R62). -/
theorem headerWord_of_fields {h : Word} (hr : rsvField h = 0#7) :
    headerWord (opcField h) (pField h) (cntField h) = h := by
  have hrsv : h.toNat / 2 ^ 17 % 2 ^ 7 = 0 := by
    simpa [rsvField, Nat.shiftRight_eq_div_pow] using congrArg BitVec.toNat hr
  have hlt := h.isLt
  apply BitVec.eq_of_toNat_eq
  rw [headerWord_toNat]
  simp only [opcField, pField, cntField, BitVec.extractLsb'_toNat, Nat.shiftRight_eq_div_pow]
  omega

theorem codeField_setWidth (c : Code) : codeField (c.setWidth 32) = c := by
  apply BitVec.eq_of_toNat_eq
  have hc := c.isLt
  simp only [codeField, BitVec.extractLsb'_toNat, BitVec.toNat_setWidth, Nat.shiftRight_zero]
  omega

theorem codeRsvField_setWidth (c : Code) : codeRsvField (c.setWidth 32) = 0#11 := by
  apply BitVec.eq_of_toNat_eq
  have hc := c.isLt
  simp only [codeRsvField, BitVec.extractLsb'_toNat, BitVec.toNat_setWidth, Nat.shiftRight_eq_div_pow, BitVec.toNat_ofNat]
  omega

/-- A code word whose reserved field is 0 is its code, widened (30_encoding.md R66). -/
theorem setWidth_codeField {w : Word} (h : codeRsvField w = 0#11) : (codeField w).setWidth 32 = w := by
  have hrsv : w.toNat / 2 ^ 21 % 2 ^ 11 = 0 := by
    simpa [codeRsvField, Nat.shiftRight_eq_div_pow] using congrArg BitVec.toNat h
  have hlt := w.isLt
  apply BitVec.eq_of_toNat_eq
  simp only [codeField, BitVec.toNat_setWidth, BitVec.extractLsb'_toNat, Nat.shiftRight_zero]
  omega

theorem map_setWidth_codeField {ws : List Word} (h : ∀ w ∈ ws, codeRsvField w = 0#11) :
    (ws.map codeField).map (BitVec.setWidth 32) = ws := by
  rw [List.map_map]
  exact (List.map_congr_left fun w hw => setWidth_codeField (h w hw)).trans (List.map_id' ws)

/-! ### One payload -/

/-- The code words of a text are clean, and give the text back (30_encoding.md R66). -/
theorem takeCodes_map_setWidth (e : Text) : takeCodes (e.map (BitVec.setWidth 32)) = .ok e := by
  refine takeCodes_eq_ok_iff.mpr ⟨fun w hw => ?_, ?_⟩
  · obtain ⟨c, -, rfl⟩ := List.mem_map.mp hw
    exact codeRsvField_setWidth c
  · rw [List.map_map]
    exact ((List.map_congr_left fun c _ => codeField_setWidth c).trans (List.map_id' e)).symm

/-- The decoder takes the elements an encoder wrote, and leaves what follows them (30_encoding.md R65). -/
theorem takeElements_flatMap_elementWords {q : SeedSeq} (h : ∀ e ∈ q, e.length < 2 ^ 32) (rest : List Word) :
    takeElements q.length (q.flatMap elementWords ++ rest) = .ok (q, rest) := by
  induction q with
  | nil => rfl
  | cons e q ih =>
    obtain ⟨he, hq⟩ := List.forall_mem_cons.mp h
    have hlen : (BitVec.ofNat 32 e.length).toNat = (e.map (BitVec.setWidth 32)).length := by
      rw [List.length_map, BitVec.toNat_ofNat, Nat.mod_eq_of_lt he]
    rw [List.flatMap_cons, elementWords, List.cons_append, List.cons_append, List.append_assoc, List.length_cons,
      takeElements_succ_cons_eq_ok_iff, hlen, List.take_left, List.drop_left]
    obtain ⟨hclean, hcodes⟩ := takeCodes_eq_ok_iff.mp (takeCodes_map_setWidth e)
    exact ⟨by simp, hclean, q, ih hq, congrArg (· :: q) hcodes⟩

/-- The elements the decoder takes are written out again as the words it took (30_encoding.md R65). -/
theorem flatMap_elementWords_of_takeElements {k : Nat} {ws rest : List Word} {q : SeedSeq}
    (h : takeElements k ws = .ok (q, rest)) : q.flatMap elementWords ++ rest = ws := by
  induction k generalizing ws q with
  | zero =>
    obtain ⟨rfl, rfl⟩ : [] = q ∧ ws = rest := by simpa [takeElements] using h
    rfl
  | succ k ih =>
    cases ws with
    | nil => cases h
    | cons l ws =>
      obtain ⟨hl, hclean, q', hq', rfl⟩ := takeElements_succ_cons_eq_ok_iff.mp h
      rw [List.flatMap_cons, List.append_assoc, ih hq', elementWords, map_setWidth_codeField hclean, List.length_map,
        List.length_take_of_le hl, BitVec.ofNat_toNat, BitVec.setWidth_eq, List.cons_append, List.take_append_drop]

/-! ### One command -/

theorem immCount_ofInt {n : Int} (h : cycleCountFits n = true) : immCount (BitVec.ofInt 32 n) = n := by
  obtain ⟨hlo, hhi⟩ : -2 ^ 31 ≤ n ∧ n < 2 ^ 31 := by simpa [cycleCountFits] using h
  rw [immCount, BitVec.toInt_ofInt_eq_self (by decide) hlo hhi]

/-- A format Z frame of a command's opcode is what the encoder writes for it (30_encoding.md R63, R68). -/
theorem encode_of_zCommand {opc : BitVec 8} {i : Instr} (h : zCommand opc = some i) : encode i = formatZ opc := by
  unfold zCommand at h
  split_ifs at h with h1 h2 h3 h4 h5 <;> obtain rfl := Option.some.inj h
  · rw [h1]; rfl
  · rw [h2]; rfl
  · rw [h3]; rfl
  · rw [h4]; rfl
  · rw [h5]; rfl

theorem decode_formatZ_of_zCommand {opc : BitVec 8} {i : Instr} (h : zCommand opc = some i) :
    decode (formatZ opc) = .ok i := by
  unfold formatZ
  rw [decode_of_zCommand (i := i) (by rw [rsvField_headerWord]) (by rw [opcField_headerWord, h])]
  exact decodeZ_eq_ok_iff.mpr ⟨by rw [pField_headerWord], by rw [cntField_headerWord], rfl, rfl⟩

theorem decode_encode_seed {q : SeedSeq} (hcount : q.length < 2 ^ 16) (hfit : ∀ e ∈ q, e.length < 2 ^ 32) :
    decode (encode (.seed q)) = .ok (.seed q) := by
  have hcnt : (BitVec.ofNat 16 q.length).toNat = q.length := by rw [BitVec.toNat_ofNat, Nat.mod_eq_of_lt hcount]
  have htake := takeElements_flatMap_elementWords hfit []
  rw [List.append_nil] at htake
  unfold encode
  rw [decode_of_seedOpcode (by rw [rsvField_headerWord]) (by rw [opcField_headerWord])]
  exact decodeSeed_eq_ok_iff.mpr ⟨by rw [pField_headerWord], q, by rw [cntField_headerWord, hcnt, htake], rfl⟩

theorem decode_encode_cycle {n : Int} (h : cycleCountFits n = true) : decode (encode (.cycle n)) = .ok (.cycle n) := by
  unfold encode
  rw [decode_of_cycleOpcode (by rw [rsvField_headerWord]) (by rw [opcField_headerWord])]
  exact decodeCycle_eq_ok_iff.mpr ⟨by rw [cntField_headerWord],
    .inr ⟨by rw [pField_headerWord], _, rfl, congrArg Instr.cycle (immCount_ofInt h).symm⟩⟩

theorem decode_encode_cycled : decode (encode .cycled) = .ok .cycled := by
  unfold encode formatZ
  rw [decode_of_cycleOpcode (by rw [rsvField_headerWord]) (by rw [opcField_headerWord])]
  exact decodeCycle_eq_ok_iff.mpr ⟨by rw [cntField_headerWord], .inl ⟨by rw [pField_headerWord], rfl, rfl⟩⟩

/-- What decodes is written again as the frame it was read from, whose reserved field is 0. -/
theorem encode_of_decode {f : Frame} {i : Instr} (h : decode f = .ok i) : encode i = f := by
  have hr : rsvField f.header = 0#7 := by
    by_contra hr
    rw [decode_of_reserved hr] at h
    cases h
  have hhdr := headerWord_of_fields hr
  obtain ⟨hdr, payload⟩ := f
  rcases opcode_cases (opcField hdr) with ho | ho | ⟨j, hz⟩ | ⟨h01, h13, hz⟩
  · rw [decode_of_seedOpcode hr ho] at h
    obtain ⟨hp, q, ht, rfl⟩ := decodeSeed_eq_ok_iff.mp h
    obtain ⟨hlen, -⟩ := takeElements_fits ht
    have hpayload := flatMap_elementWords_of_takeElements ht
    rw [List.append_nil] at hpayload
    rw [encode, hpayload, hlen, ← ho, ← hp, BitVec.ofNat_toNat, BitVec.setWidth_eq, hhdr]
  · rw [decode_of_cycleOpcode hr ho] at h
    obtain ⟨hc, ⟨hp, hpay, rfl⟩ | ⟨hp, imm, hpay, rfl⟩⟩ := decodeCycle_eq_ok_iff.mp h
    · rw [encode, formatZ, ← ho, ← hp, ← hc, hhdr, ← hpay]
    · rw [encode, immCount, BitVec.ofInt_toInt, ← ho, ← hp, ← hc, hhdr, ← hpay]
  · rw [decode_of_zCommand hr hz] at h
    obtain ⟨hp, hc, hpay, rfl⟩ := decodeZ_eq_ok_iff.mp h
    rw [encode_of_zCommand hz, formatZ, ← hp, ← hc, hhdr, ← hpay]
  · rw [decode_of_unassigned hr h01 h13 hz] at h
    cases h

/-! ### The statements -/

/-- Settles O1: a header gives back its fields, and a SEED payload its elements, by induction over them. -/
theorem decodeEncodeRoundTrip : Obligations.DecodeEncodeRoundTrip := by
  intro i hwf
  cases i with
  | seed q =>
    obtain ⟨hcount, hfit⟩ : q.length < 2 ^ 16 ∧ ∀ e ∈ q, e.length < 2 ^ 32 := by
      simpa [Instr.wellFormed, countFits, lengthsFit] using hwf
    exact decode_encode_seed hcount hfit
  | seedr | restart | random | fract53 | int32 => exact decode_formatZ_of_zCommand rfl
  | cycle n => exact decode_encode_cycle hwf
  | cycled => exact decode_encode_cycled

/-- Settles O2: every field the decoder checks or reads is one the encoder writes, so nothing of the frame is lost. -/
theorem encodeDecodeRoundTrip : Obligations.EncodeDecodeRoundTrip :=
  fun _ _ h => ⟨decode_wellFormed h, encode_of_decode h⟩

/-- Settles O4: the decoder, evaluated on each of the nine frames. -/
theorem writtenFramesDecode : Obligations.WrittenFramesDecode :=
  ⟨by decide, rfl, rfl, rfl, rfl, rfl, by decide, by decide, rfl⟩

end Sys2Proof
end

section
/-! PROOF. The step as a whole: what it takes off the port, what it answers before any seed, and the host's interface
(30_encoding.md R60, 60_exceptions.md R162, R163, 70_reset_and_hazards.md R190, R192). -/

namespace Sys2Proof.Machine

/-! ### Which command writes what Draw does not -/

/-- What a command keeps (10_state.md R25, R26, R29, 20_memory.md R43, R54): nobody writes the parameters, the port or the
count of resets; ENT, SEEDED, the seed store and N have the writers named. -/
structure Keeps (i : Instr) (s t : State) : Prop where
  params : t.params = s.params
  inputs : t.inputs = s.inputs
  resets : t.resets = s.resets
  ent : i ≠ .seedr → t.ent = s.ent ∧ t.entFree = s.entFree
  store : needsSeeded i = true → t.seeded = s.seeded ∧ t.seedStore = s.seedStore
  acc : isDrawing i = true → t.n = s.n

theorem Keeps.respond_self (i : Instr) (f : Frame) (s : State) : Keeps i s (respond f s) :=
  ⟨rfl, rfl, rfl, fun _ => ⟨rfl, rfl⟩, fun _ => ⟨rfl, rfl⟩, fun _ => rfl⟩

theorem Keeps.respond_drawTimes (i : Instr) (f : Frame) (k : Nat) (s : State) : Keeps i s (respond f (drawTimes k s)) := by
  obtain ⟨hn, hstore, hseeded, hparams, hinputs, -, hent, hfree, hresets⟩ := drawTimes_keeps k s
  exact ⟨hparams, hinputs, hresets, fun _ => ⟨hent, hfree⟩, fun _ => ⟨hseeded, hstore⟩, fun _ => hn⟩

theorem exec_keeps {i : Instr} {s t : State} (h : exec i s = .next t) : Keeps i s t := by
  rcases exec_cases i s with ⟨-, -, he⟩ | ⟨q, rfl, -, he⟩ | ⟨q, rfl, -, he⟩ | ⟨rfl, he⟩ | ⟨rfl, -, he⟩ | ⟨k, -, -, -, he⟩ |
    ⟨k, res, -, -, -, he⟩ <;> obtain rfl := Host.Outcome.next.inj (he.symm.trans h)
  · exact .respond_self _ _ _
  · exact .respond_self _ _ _
  · exact ⟨by simp, by simp, by simp, fun _ => by simp, nofun, nofun⟩
  · obtain ⟨hparams, hinputs, -, hresets⟩ := entropySeed_keeps s
    exact ⟨by simp [hparams], by simp [hinputs], by simp [hresets], fun hne => absurd rfl hne, nofun, nofun⟩
  · exact ⟨by simp, by simp, by simp, fun _ => by simp, fun _ => by simp, nofun⟩
  · exact .respond_drawTimes _ _ _ _
  · exact .respond_drawTimes _ _ _ _

/-- Settles O46: read off what each of the ways a command can go keeps. -/
theorem onlySeedingWritesTheStore : Obligations.OnlySeedingWritesTheStore := by
  intro i s t h
  obtain ⟨hparams, hinputs, hresets, hent, hstore, hn⟩ := exec_keeps h
  exact ⟨hparams, hinputs, hresets, hent,
    fun hi => ⟨(hstore hi).1, (hstore hi).2, fun j k => memRead_congr (hstore hi).2 j k⟩, hn⟩

/-! ### One step -/

theorem step_next (s : State) : ∃ t, step s = .next t := by
  rcases hin : s.inputs with _ | ⟨f | _, rest⟩
  · exact ⟨s, step_of_idle hin⟩
  · cases hd : decode f with
    | error e => exact ⟨_, step_of_decode_error hin hd⟩
    | ok i => rw [step_of_decode_ok hin hd]; exact exec_next i _
  · exact ⟨_, step_of_reset hin⟩

/-- A step on a frame takes that frame off the port and leaves the parameters (20_memory.md R49, 00_scope.md R7). -/
theorem step_frame_keeps {s t : State} {f : Frame} {rest : List Input} (hin : s.inputs = .frame f :: rest)
    (h : step s = .next t) : t.inputs = rest ∧ t.params = s.params := by
  cases hd : decode f with
  | error e =>
    obtain rfl := Host.Outcome.next.inj ((step_of_decode_error hin hd).symm.trans h)
    exact ⟨rfl, rfl⟩
  | ok i =>
    rw [step_of_decode_ok hin hd] at h
    exact ⟨(exec_keeps h).inputs, (exec_keeps h).params⟩

/-- Settles O10: an empty port gives the step nothing to take. -/
theorem idleBlockHoldsItsState : Obligations.IdleBlockHoldsItsState := fun _ h => step_of_idle h

/-- Settles O11: RESET is taken as one update of the state, whose other fields are free. -/
theorem resetInputClearsSeeded : Obligations.ResetInputClearsSeeded :=
  fun _ _ hs => ⟨_, step_of_reset hs, rfl, rfl, rfl, rfl, rfl, rfl⟩

/-- Settles O12: SEEDED = 0, so only the default parameters are checked. -/
theorem resetMeetsTheInvariant : Obligations.ResetMeetsTheInvariant := ⟨rfl, by decide⟩

/-- Settles O13: each of the ways a command or a step can go answers a next state. -/
theorem everyStepAnswersNext : Obligations.EveryStepAnswersNext := ⟨exec_next, step_next⟩

/-- Settles O15: a command leaves port and parameters alone and adds one response; RESET and an idle step add none. -/
theorem stepConsumesOneInput : Obligations.StepConsumesOneInput := by
  intro s t h
  rcases hin : s.inputs with _ | ⟨f | _, rest⟩
  · obtain rfl := Host.Outcome.next.inj ((step_of_idle hin).symm.trans h)
    exact ⟨hin, rfl, [], by simp, by simp⟩
  · obtain ⟨r, hrsp, -⟩ := step_answers hin h
    obtain ⟨hinputs, hparams⟩ := step_frame_keeps hin h
    exact ⟨hinputs, hparams, [r], hrsp, le_rfl⟩
  · obtain rfl := Host.Outcome.next.inj ((step_of_reset hin).symm.trans h)
    exact ⟨rfl, rfl, [], by simp, by simp⟩

/-! ### The host's interface -/

theorem decode_tableFrame {nbits w : Nat} {i : Instr} (h : decodeTableWord nbits w = some i) :
    decode (tableFrame nbits w) = .ok i := by
  unfold decodeTableWord at h
  cases hd : decode (tableFrame nbits w) with
  | error e => rw [hd] at h; cases h
  | ok j => rw [hd] at h; exact congrArg Except.ok (Option.some.inj h)

/-- Settles O8: the frame put in front of the port is the one the step takes off it. -/
theorem tableWordRunsNext : Obligations.TableWordRunsNext :=
  fun s nbits w _ h => step_of_decode_ok (s := s.withFetchWord nbits w) rfl (decode_tableFrame h)

/-! ### Before any seed -/

/-- The answer to a frame while SEEDED = 0, for one that is no SEED or SEEDR (70_reset_and_hazards.md R192); `step_of_unseeded`
ties it to the model. -/
def unseededAnswer (f : Frame) : Frame :=
  match decode f with
  | .error _ => ⟨1#32, []⟩
  | .ok _ => ⟨2#32, []⟩

theorem step_of_unseeded {s : State} {f : Frame} {rest : List Input} (hs : s.seeded = false)
    (hin : s.inputs = .frame f :: rest) (hf : ∀ i, decode f = .ok i → needsSeeded i = true) :
    step s = .next (respond (unseededAnswer f) { s with inputs := rest }) := by
  unfold unseededAnswer
  cases hd : decode f with
  | error e => rw [step_of_decode_error hin hd, faultFrame_illegalCommand]
  | ok i => rw [step_of_decode_ok hin hd, exec_of_unseeded (hf i hd) (by exact hs), faultFrame_unseeded]

theorem run_of_unseeded {s : State} {fs : List Frame} (hs : s.seeded = false) (hin : s.inputs = fs.map .frame)
    (hfs : ∀ f ∈ fs, ∀ i, decode f = .ok i → needsSeeded i = true) :
    Sys2Proof.core.run fs.length s = .next { s with inputs := [], rsp := s.rsp ++ fs.map unseededAnswer } := by
  induction fs generalizing s with
  | nil =>
    rw [List.map_nil] at hin
    simp [Host.Core.run, ← hin]
  | cons f fs ih =>
    obtain ⟨hf, hrest⟩ := List.forall_mem_cons.mp hfs
    have hrun := ih (s := respond (unseededAnswer f) { s with inputs := fs.map .frame }) hs rfl hrest
    refine ((run_succ_of_step (M := Sys2Proof.core) (step_of_unseeded hs hin hf) fs.length).trans hrun).trans ?_
    simp only [respond, List.map_cons, List.append_assoc, List.singleton_append]

/-- Settles O22: one frame at a time, by induction on the list; each leaves the block unseeded. -/
theorem beforeSeedingOnlyFaults : Obligations.BeforeSeedingOnlyFaults :=
  fun _ _ hs hin hfs => run_of_unseeded hs hin hfs

end Sys2Proof.Machine
end

section
/-! PROOF. What the seeded commands do, one equation each, and what follows for the drawing commands (42_draw.md R131,
43_derived.md R140 to R146). -/

namespace Sys2Proof.Machine

section Seeded

variable {s : State}

theorem exec_restart_of_seeded (hs : s.seeded = true) :
    exec .restart s = .next (respond okFrame (init s.seedStore s)) := by
  rw [exec, execRestart, whenSeeded_true hs]; rfl

theorem exec_random_of_seeded (hs : s.seeded = true) :
    exec .random s = .next (respond (valueFrame (draw s).s2) (draw s)) := by
  rw [exec, execRandom, whenSeeded_true hs]; rfl

theorem exec_fract53_of_seeded (hs : s.seeded = true) :
    exec .fract53 s = .next (respond (valueFrame (fractOf (draw s).s2 (draw (draw s)).s2)) (draw (draw s))) := by
  rw [exec, execFract53, whenSeeded_true hs]; rfl

theorem exec_int32_of_seeded (hs : s.seeded = true) :
    exec .int32 s = .next (respond (valueFrame (int32Of (draw s).s2)) (draw s)) := by
  rw [exec, execInt32, whenSeeded_true hs]; rfl

theorem exec_cycle_of_seeded (hs : s.seeded = true) (n : Int) :
    exec (.cycle n) s = .next (respond okFrame (drawTimes (drawCount n) s)) := by
  rw [exec, execCycle, whenSeeded_true hs]; rfl

theorem exec_cycled_of_seeded (hs : s.seeded = true) : exec .cycled s = .next (respond okFrame (draw s)) := by
  rw [exec, execCycled, whenSeeded_true hs]; rfl

end Seeded

theorem drawTimes_one (s : State) : drawTimes 1 s = draw s := rfl

/-- A positive count that a frame can carry is drawn as it stands (43_derived.md R144). -/
theorem drawCount_natCast {k : Nat} (h : 1 ≤ k) : drawCount k = k := by
  unfold drawCount; omega

theorem drawTimes_seeded (k : Nat) (s : State) : (drawTimes k s).seeded = s.seeded := by
  obtain ⟨-, -, hseeded, -⟩ := drawTimes_keeps k s
  exact hseeded

/-- Settles O45: of the ways a command can go, a drawing command while SEEDED = 1 has only the two that draw. -/
theorem drawingTouchesWordsAndCarryOnly : Obligations.DrawingTouchesWordsAndCarryOnly := by
  intro i s hd hs
  have hdraw : ∃ k r, exec i s = .next (respond r (drawTimes k s)) ∧ r.header.extractLsb' 0 8 = 0#8 := by
    rcases exec_cases i s with ⟨-, hun, -⟩ | ⟨q, rfl, -⟩ | ⟨q, rfl, -⟩ | ⟨rfl, -⟩ | ⟨rfl, -⟩ | ⟨k, -, -, -, he⟩ |
      ⟨k, res, -, -, -, he⟩
    · exact absurd (hun.symm.trans hs) Bool.false_ne_true
    iterate 4 cases hd
    · exact ⟨k, _, he, by simp⟩
    · exact ⟨k, _, he, by simp⟩
  obtain ⟨k, r, he, hr⟩ := hdraw
  obtain ⟨a, b, d, c, hk⟩ := drawTimes_frame k s
  exact ⟨_, r, he, hr, by rw [hk]; rfl⟩

/-- Settles O48: both counts are clamped to one draw. -/
theorem smallCyclesAreCycled : Obligations.SmallCyclesAreCycled := by
  intro s n hn
  change execCycle n s = execCycled s
  rw [execCycle, execCycled, drawCount_of_le hn]
  rfl

/-- A run of RANDOMs draws as often as there are commands, and otherwise only responds. -/
theorem execAll_replicate_random (k : Nat) {s : State} (hs : s.seeded = true) :
    ∃ rsp, execAll (List.replicate k .random) s = .next { drawTimes k s with rsp := rsp } := by
  induction k generalizing s with
  | zero => exact ⟨s.rsp, rfl⟩
  | succ k ih =>
    obtain ⟨rsp, h⟩ := ih (s := respond (valueFrame (draw s).s2) (draw s)) hs
    rw [drawTimes_respond] at h
    refine ⟨rsp, ?_⟩
    rw [List.replicate_succ, execAll, exec_random_of_seeded hs]
    exact h

/-- Two responses to one state leave states that differ in RSP only. -/
theorem respond_eq_with_rsp (f g : Frame) (s : State) : respond f s = { respond g s with rsp := (respond f s).rsp } := rfl

/-- Settles O47: every one of these commands is a number of draws, and draws add up. -/
theorem cycleIsRepeatedDraws : Obligations.CycleIsRepeatedDraws := by
  intro s hs
  refine ⟨fun k hk _ => ?_, fun n hn => ?_, fun j k hj hk _ => ?_, ?_, ?_⟩
  · obtain ⟨rsp, h⟩ := execAll_replicate_random k hs
    have hc := exec_cycle_of_seeded hs k
    rw [drawCount_natCast hk] at hc
    exact ⟨_, _, hc, h, rfl⟩
  · have hc := exec_cycle_of_seeded hs n
    rw [drawCount_of_le hn.le, drawTimes_one] at hc
    exact ⟨_, _, hc, exec_random_of_seeded hs, respond_eq_with_rsp _ _ _⟩
  · have hc := exec_cycle_of_seeded hs (j + k)
    have hjk : drawCount (j + k) = j + k := mod_cast drawCount_natCast (Nat.le_add_right_of_le (k := k) hj)
    rw [hjk, drawTimes_add] at hc
    have hs' : (respond okFrame (drawTimes j s)).seeded = true := (drawTimes_seeded j s).trans hs
    have h1 : execAll [.cycle j, .cycle k] s = .next (respond okFrame (respond okFrame (drawTimes k (drawTimes j s)))) := by
      simp only [execAll, exec_cycle_of_seeded hs, drawCount_natCast hj, exec_cycle_of_seeded hs', drawCount_natCast hk,
        drawTimes_respond]
    exact ⟨_, _, h1, hc, rfl⟩
  · have hc := exec_cycle_of_seeded hs 2
    exact ⟨_, _, exec_fract53_of_seeded hs, hc, respond_eq_with_rsp _ _ _⟩
  · have hc := exec_cycle_of_seeded hs 1
    rw [drawCount_of_le le_rfl, drawTimes_one] at hc
    exact ⟨_, _, exec_int32_of_seeded hs, hc, respond_eq_with_rsp _ _ _⟩

end Sys2Proof.Machine
end

section
/-! PROOF. The assembly text and the two readings of TEXT_UNIT (00_scope.md R7, 30_encoding.md R75, R76). -/

namespace Sys2Proof.Machine

/-- A character below 0x10000 is one code in either reading (30_encoding.md R66). -/
theorem charCodes_of_lt {ch : Char} (h : ch.toNat < 0x10000) (u : TextUnit) : charCodes u ch = [BitVec.ofNat 21 ch.toNat] := by
  cases u with
  | codePoint => rfl
  | utf16 => exact if_pos h

/-- Settles O6: character by character. -/
theorem textUnitsAgreeBelowSurrogates : Obligations.TextUnitsAgreeBelowSurrogates := fun _ h =>
  List.flatMap_congr fun ch hch => (charCodes_of_lt (h ch hch) _).trans (charCodes_of_lt (h ch hch) _).symm

/-- Settles O5: the assembler, evaluated on each of the seven lines. -/
theorem assemblyLinesStandForCommands : Obligations.AssemblyLinesStandForCommands :=
  ⟨by decide, by decide, by decide, by decide, by decide, by decide, by decide⟩

end Sys2Proof.Machine
end

section
/-! PROOF. Rounding to 53 significant bits is to nearest, ties to even (00_scope.md R10). -/

namespace Sys2Proof.Machine

/-! ### Rounding to a given spacing -/

/-- How far a multiple of the spacing is from v: the remainder, what the remainder lacks, or a spacing or more. -/
theorem apart_mul_cases {v P : Nat} (hP : 0 < P) (k : Nat) :
    (k = v / P ∧ apart (k * P) v = v % P) ∨ (k = v / P + 1 ∧ apart (k * P) v = P - v % P) ∨
      (k ≠ v / P ∧ k ≠ v / P + 1 ∧ P ≤ apart (k * P) v) := by
  have hv := Nat.div_add_mod' v P
  have hr := Nat.mod_lt v hP
  generalize v / P = q at hv ⊢
  unfold apart
  rcases Nat.lt_trichotomy k q with hk | rfl | hk
  · have hle := Nat.mul_le_mul_right P (Nat.succ_le_of_lt hk)
    rw [Nat.succ_mul] at hle
    omega
  · omega
  · obtain ⟨d, rfl⟩ := Nat.exists_eq_add_of_lt hk
    rcases Nat.eq_zero_or_pos d with rfl | hd
    · rw [Nat.add_zero, Nat.succ_mul]
      omega
    · have hle := Nat.le_mul_of_pos_left P hd
      rw [Nat.succ_mul, Nat.add_mul]
      omega

/-- `rneShift` picks a nearest multiple of the spacing, the even one where two are equally near. -/
theorem rneShift_nearest (v sh k : Nat) :
    apart (rneShift v sh * 2 ^ sh) v ≤ apart (k * 2 ^ sh) v ∧
    (k ≠ rneShift v sh → apart (rneShift v sh * 2 ^ sh) v = apart (k * 2 ^ sh) v → rneShift v sh % 2 = 0) := by
  have hP : 0 < 2 ^ sh := Nat.two_pow_pos sh
  have hk := apart_mul_cases (v := v) hP k
  have hR := apart_mul_cases (v := v) hP (rneShift v sh)
  have hr := Nat.mod_lt v hP
  have hdef : rneShift v sh = if 2 ^ sh < 2 * (v % 2 ^ sh) ∨ (2 * (v % 2 ^ sh) = 2 ^ sh ∧ v / 2 ^ sh % 2 = 1)
      then v / 2 ^ sh + 1 else v / 2 ^ sh := rfl
  generalize rneShift v sh = R at *
  split_ifs at hdef with hup <;> omega

theorem rneShift_le_of_lt {v sh b : Nat} (h : v < 2 ^ (b + sh)) : rneShift v sh ≤ 2 ^ b := by
  have hq : v / 2 ^ sh < 2 ^ b := Nat.div_lt_of_lt_mul (by rwa [← Nat.pow_add, Nat.add_comm])
  exact (rneShift_bounds v sh).2.trans hq

theorem le_rneShift_of_le {v sh b : Nat} (h : 2 ^ (b + sh) ≤ v) : 2 ^ b ≤ rneShift v sh := by
  have hq : 2 ^ b ≤ v / 2 ^ sh := (Nat.le_div_iff_mul_le (Nat.two_pow_pos sh)).mpr (by rwa [← Nat.pow_add])
  exact hq.trans (rneShift_bounds v sh).1

/-! ### Which spacing RNE53 takes -/

/-- The spacing RNE53 rounds to: 53 significant bits, and never below `2^low` (00_scope.md R10). -/
def rneSpacing (v low : Nat) : Nat := max (bitLen v - 53) low

theorem rneUnits_eq (v low : Nat) : rneUnits v low = rneShift v (rneSpacing v low) * 2 ^ (rneSpacing v low - low) := rfl

theorem low_le_rneSpacing (v low : Nat) : low ≤ rneSpacing v low := le_max_right _ _

/-- The result as a multiple of the spacing, in the units of v. -/
theorem rneUnits_mul (v low : Nat) : rneUnits v low * 2 ^ low = rneShift v (rneSpacing v low) * 2 ^ rneSpacing v low := by
  rw [rneUnits_eq, Nat.mul_assoc, ← Nat.pow_add, Nat.sub_add_cancel (low_le_rneSpacing v low)]

theorem lt_two_pow_rneSpacing (v low : Nat) : v < 2 ^ (53 + rneSpacing v low) :=
  bitLen_le.mp (by unfold rneSpacing; omega)

/-- Above the least spacing, v has all of 53 significant bits. -/
theorem two_pow_rneSpacing_le {v low : Nat} (h : low < rneSpacing v low) : 2 ^ (52 + rneSpacing v low) ≤ v := by
  by_contra hlt
  have hb := bitLen_le.mpr (not_le.mp hlt)
  unfold rneSpacing at h hb
  omega

theorem rneShift_spacing_le (v low : Nat) : rneShift v (rneSpacing v low) ≤ 2 ^ 53 :=
  rneShift_le_of_lt (lt_two_pow_rneSpacing v low)

theorem isF64_mul_two_pow {m j : Nat} (h : m ≤ 2 ^ 53) : isF64 (m * 2 ^ j) := by
  rcases Nat.lt_or_eq_of_le h with hlt | rfl
  · exact ⟨m, j, hlt, rfl⟩
  · exact ⟨1, 53 + j, by decide, by rw [Nat.pow_add, Nat.one_mul]⟩

/-- A value off the spacing is below every value of 53 significant bits there, so `2^52` spacings are nearer to v. -/
theorem exists_nearer_multiple {y v low : Nat} (hy : isF64 y) :
    ∃ k, y * 2 ^ low = k * 2 ^ rneSpacing v low ∨ apart (k * 2 ^ rneSpacing v low) v < apart (y * 2 ^ low) v := by
  obtain ⟨m, j, hm, rfl⟩ := hy
  rw [Nat.mul_assoc, ← Nat.pow_add]
  rcases Nat.lt_or_ge (j + low) (rneSpacing v low) with hlt | hge
  · refine ⟨2 ^ 52, .inr ?_⟩
    have hv := two_pow_rneSpacing_le (v := v) (low := low) (by omega)
    have hy : m * 2 ^ (j + low) < 2 ^ (52 + rneSpacing v low) :=
      calc m * 2 ^ (j + low) < 2 ^ 53 * 2 ^ (j + low) := (Nat.mul_lt_mul_right (Nat.two_pow_pos _)).mpr hm
        _ = 2 ^ (53 + (j + low)) := (Nat.pow_add _ _ _).symm
        _ ≤ 2 ^ (52 + rneSpacing v low) := Nat.pow_le_pow_right (by decide) (by omega)
    rw [← Nat.pow_add]
    unfold apart
    omega
  · refine ⟨m * 2 ^ (j + low - rneSpacing v low), .inl ?_⟩
    rw [Nat.mul_assoc, ← Nat.pow_add, Nat.sub_add_cancel hge]

/-- RNE53 is nearest among all values of 53 significant bits, and on a tie its multiple of the spacing is even. -/
theorem rneUnits_nearest {y : Nat} (v low : Nat) (hy : isF64 y) :
    apart (rneUnits v low * 2 ^ low) v ≤ apart (y * 2 ^ low) v ∧
    (y ≠ rneUnits v low → apart (rneUnits v low * 2 ^ low) v = apart (y * 2 ^ low) v →
      rneShift v (rneSpacing v low) % 2 = 0) := by
  obtain ⟨k, hk⟩ := exists_nearer_multiple (v := v) (low := low) hy
  obtain ⟨hle, htie⟩ := rneShift_nearest v (rneSpacing v low) k
  rw [← rneUnits_mul] at hle htie
  rcases hk with hk | hk
  · rw [← hk] at hle htie
    refine ⟨hle, fun hne heq => htie (fun hkR => hne ?_) heq⟩
    rw [hkR, ← rneUnits_mul] at hk
    exact Nat.eq_of_mul_eq_mul_right (Nat.two_pow_pos low) hk
  · exact ⟨hle.trans hk.le, fun _ heq => absurd (heq ▸ hle) (not_le.mpr hk)⟩

/-- The significand of the result is the multiple of the spacing, or half of it where that is `2^53`; so it is even where
the multiple is. -/
theorem significand_even {v low : Nat} (h : rneShift v (rneSpacing v low) % 2 = 0) :
    rneUnits v low / 2 ^ (bitLen (rneUnits v low) - 53) % 2 = 0 := by
  rw [rneUnits_eq]
  generalize hR : rneShift v (rneSpacing v low) = R at h
  generalize hd : rneSpacing v low - low = d
  rcases Nat.eq_zero_or_pos R with rfl | hpos
  · simp
  have hle : R ≤ 2 ^ 53 := hR ▸ rneShift_spacing_le v low
  rw [bitLen_mul_two_pow hpos.ne']
  rcases Nat.lt_or_eq_of_le hle with hlt | rfl
  · have hb := bitLen_le.mpr hlt
    have hsh : bitLen R + d - 53 = d := by
      rcases Nat.eq_zero_or_pos d with rfl | hdpos
      · omega
      · have h52 : 2 ^ 52 ≤ R := hR ▸ le_rneShift_of_le (two_pow_rneSpacing_le (by omega))
        have : 52 < bitLen R := not_le.mp fun hc => absurd (bitLen_le.mp hc) (not_lt.mpr h52)
        omega
    rw [hsh, Nat.mul_div_cancel _ (Nat.two_pow_pos d), h]
  · have hsh : bitLen (2 ^ 53) + d - 53 = 1 + d := by
      have hb : bitLen (2 ^ 53) = 54 := by decide
      omega
    rw [hsh, Nat.pow_add, Nat.mul_div_mul_right _ _ (Nat.two_pow_pos d)]
    decide

/-- Settles O23: a value on the spacing is no nearer than the multiple RNE53 picks, and one off it is farther. -/
theorem roundingIsToNearestEven : Obligations.RoundingIsToNearestEven := by
  intro p e low
  rw [funits_rne53]
  refine ⟨isF64_mul_two_pow (rneShift_spacing_le _ _), fun y hy => ?_⟩
  obtain ⟨hle, htie⟩ := rneUnits_nearest (p * 2 ^ e) low hy
  exact ⟨hle, fun hne heq => significand_even (htie hne heq)⟩

end Sys2Proof.Machine
end

section
/-! PROOF. Finite values and their patterns stand for each other (00_scope.md R10). -/

namespace Sys2Proof.Machine

/-- The one pair of each finite value that its pattern is read off: a significand of 53 bits, or the least exponent. -/
structure Normal (m t : Nat) : Prop where
  sig_lt : m < 2 ^ 53
  exp_le : t ≤ 2045
  leading : t = 0 ∨ 2 ^ 52 ≤ m

/-- The pattern of a normal pair as a number. -/
theorem Normal.pattern_lt {m t : Nat} (h : Normal m t) : t * 2 ^ 52 + m < 2047 * 2 ^ 52 := by
  obtain ⟨hm, ht, -⟩ := h
  omega

theorem Normal.valueOf_pattern {m t : Nat} (h : Normal m t) : valueOf (BitVec.ofNat 64 (t * 2 ^ 52 + m)) = ⟨m, t⟩ := by
  have hlt := h.pattern_lt
  obtain ⟨hm, ht, hlead⟩ := h
  have hw : (BitVec.ofNat 64 (t * 2 ^ 52 + m)).toNat = t * 2 ^ 52 + m := by
    rw [BitVec.toNat_ofNat]
    omega
  unfold valueOf
  simp only [hw]
  split_ifs with h0 h1
  · rw [F64.mk.injEq]; omega
  · rw [F64.mk.injEq]; omega
  · omega

theorem Normal.shift_eq {m t : Nat} (h : Normal m t) : bitLen (m * 2 ^ t) - 53 = t := by
  obtain ⟨hm, -, hlead⟩ := h
  have hb := bitLen_le.mpr hm
  rcases Nat.eq_zero_or_pos m with rfl | hpos
  · simp; omega
  · rw [bitLen_mul_two_pow hpos.ne']
    rcases hlead with rfl | hlead
    · omega
    · have : 52 < bitLen m := not_le.mp fun hc => absurd (bitLen_le.mp hc) (not_lt.mpr hlead)
      omega

theorem Normal.bits64_eq {m t : Nat} (h : Normal m t) : bits64 ⟨m, t⟩ = BitVec.ofNat 64 (t * 2 ^ 52 + m) := by
  rw [Machine.bits64_eq, funits, h.shift_eq, Nat.mul_div_cancel _ (Nat.two_pow_pos t)]

/-- Every finite value has a normal pair. -/
theorem exists_normal {m j : Nat} (hm : m < 2 ^ 53) (hfin : m * 2 ^ j < 2 ^ 2098) :
    ∃ m' t, Normal m' t ∧ m' * 2 ^ t = m * 2 ^ j := by
  rcases Nat.eq_zero_or_pos m with rfl | hpos
  · exact ⟨0, 0, ⟨by decide, by decide, .inl rfl⟩, by simp⟩
  have hb := bitLen_le.mpr hm
  have hv := bitLen_mul_two_pow hpos.ne' j
  have hmax := bitLen_le.mpr hfin
  obtain ⟨d, hd⟩ : ∃ d, j = (bitLen m + j - 53) + d := ⟨j - (bitLen m + j - 53), by omega⟩
  generalize ht : bitLen m + j - 53 = t at hd
  have heq : m * 2 ^ d * 2 ^ t = m * 2 ^ j := by rw [hd, Nat.pow_add]; ring
  have hbd := bitLen_mul_two_pow hpos.ne' d
  refine ⟨m * 2 ^ d, t, ⟨bitLen_le.mp (by omega), by omega, ?_⟩, heq⟩
  rcases Nat.eq_zero_or_pos t with h0 | ht0
  · exact .inl h0
  · refine .inr (not_lt.mp fun hc => ?_)
    have := bitLen_le.mpr hc
    omega

/-- Every pattern that is finite with sign 0 is that of a normal pair. -/
theorem exists_normal_pattern {w : BitVec 64} (h : w.toNat < 2047 * 2 ^ 52) :
    ∃ m t, Normal m t ∧ w = BitVec.ofNat 64 (t * 2 ^ 52 + m) := by
  have key : ∀ m t, Normal m t → t * 2 ^ 52 + m = w.toNat → ∃ m t, Normal m t ∧ w = BitVec.ofNat 64 (t * 2 ^ 52 + m) :=
    fun m t hn he => ⟨m, t, hn, by rw [he, BitVec.ofNat_toNat, BitVec.setWidth_eq]⟩
  rcases Nat.lt_or_ge w.toNat (2 ^ 52) with hsub | hnorm
  · exact key w.toNat 0 ⟨by omega, by omega, .inl rfl⟩ (by omega)
  · exact key (2 ^ 52 + w.toNat % 2 ^ 52) (w.toNat / 2 ^ 52 - 1) ⟨by omega, by omega, .inr (by omega)⟩ (by omega)

theorem funits_valueOf_bits64 {a : F64} {m j : Nat} (ha : funits a = m * 2 ^ j) (hm : m < 2 ^ 53)
    (hfin : m * 2 ^ j < 2 ^ 2098) : funits (valueOf (bits64 a)) = funits a := by
  obtain ⟨m', t, hn, heq⟩ := exists_normal hm hfin
  have hfun : funits a = funits ⟨m', t⟩ := by rw [ha, ← heq, funits]
  rw [bits64_congr hfun, hn.bits64_eq, hn.valueOf_pattern, hfun]

theorem bits64_valueOf {w : BitVec 64} (h : w.toNat < 2047 * 2 ^ 52) : bits64 (valueOf w) = w := by
  obtain ⟨m, t, hn, rfl⟩ := exists_normal_pattern h
  rw [hn.valueOf_pattern, hn.bits64_eq]

/-- The pattern of a value below `2^(k + 53)` units is below that of the first value with a larger exponent field. -/
theorem bits64_toNat_lt {a : F64} {m j k n : Nat} (ha : funits a = m * 2 ^ j) (hm : m < 2 ^ 53) (hn : n = k + 53)
    (hk : k ≤ 2045) (hlt : m * 2 ^ j < 2 ^ n) : (bits64 a).toNat < (k + 2) * 2 ^ 52 := by
  have hexp : n ≤ 2098 := by omega
  obtain ⟨m', t, hnorm, heq⟩ := exists_normal hm (hlt.trans_le (pow_le_pow_right₀ one_le_two hexp))
  have ht : t ≤ k := by
    have hb := bitLen_le.mpr (heq ▸ hlt)
    have hs := hnorm.shift_eq
    omega
  have hfun : funits a = funits ⟨m', t⟩ := by rw [ha, ← heq, funits]
  rw [bits64_congr hfun, hnorm.bits64_eq, BitVec.toNat_ofNat]
  have hpat := hnorm.pattern_lt
  have hm' := hnorm.sig_lt
  omega

/-- Settles O24: the pattern of a value is that of its normal pair, and every finite pattern is one of those. -/
theorem patternsRoundTrip : Obligations.PatternsRoundTrip :=
  ⟨fun m j hm hfin => funits_valueOf_bits64 (a := ⟨m, j⟩) rfl hm hfin, fun _ h => bits64_valueOf h⟩

end Sys2Proof.Machine
end

section
/-! PROOF. The operations on values of few significant bits, where no rounding shows, and the state words, all of which are
such values (00_scope.md R10, 10_state.md R22, R33). -/

namespace Sys2Proof.Machine

/-- A significand of k bits at an exponent. -/
theorem mul_two_pow_lt {x k i n : Nat} (hx : x < 2 ^ k) (h : k + i ≤ n) : x * 2 ^ i < 2 ^ n :=
  calc x * 2 ^ i < 2 ^ k * 2 ^ i := (Nat.mul_lt_mul_right (Nat.two_pow_pos i)).mpr hx
    _ = 2 ^ (k + i) := (Nat.pow_add 2 k i).symm
    _ ≤ 2 ^ n := Nat.pow_le_pow_right Nat.two_pos h

/-! ### The constants of 00_scope.md R14, in units -/

theorem funits_twoNeg32 : funits twoNeg32 = 1 * 2 ^ 1042 := by simp only [funits, twoNeg32]

theorem funits_twoNeg53 : funits twoNeg53 = 1 * 2 ^ 1021 := by simp only [funits, twoNeg53]

theorem funits_multK : funits multK = multKM * 2 ^ 1037 := by simp only [funits, multK, multKM]

/-- A power of two as a value. -/
theorem funits_fOfNat_two_pow {k n : Nat} (h : k + 1074 = n) : funits (fOfNat (2 ^ k)) = 1 * 2 ^ n := by
  rw [funits_fOfNat, ← h, Nat.pow_add, Nat.one_mul]

/-! ### Operations that do not round -/

section Exact

variable {a b : F64} {p q i j l k : Nat}

theorem rnd53_of_lt (h : p < 2 ^ 53) : rnd53 p = p := if_pos (bitLen_le.mpr h)

/-- A product is the rounded product of the significands, at the sum of the exponents. -/
theorem funits_fmul_eq (ha : funits a = p * 2 ^ i) (hb : funits b = q * 2 ^ j) (hl : i + j = l + 1074) :
    funits (fmul a b) = rnd53 (p * q) * 2 ^ l := by
  have h : p * 2 ^ i * (q * 2 ^ j) = p * q * 2 ^ (i + j) := by rw [Nat.pow_add]; ring
  rw [funits_fmul, ha, hb, h, rneUnits_scale _ (by omega), show i + j - 1074 = l by omega]

theorem funits_fmul_exact (ha : funits a = p * 2 ^ i) (hb : funits b = q * 2 ^ j) (hl : i + j = l + 1074)
    (hlt : p * q < 2 ^ 53) : funits (fmul a b) = p * q * 2 ^ l := by
  rw [funits_fmul_eq ha hb hl, rnd53_of_lt hlt]

theorem funits_fadd_exact (ha : funits a = p * 2 ^ i) (hb : funits b = q * 2 ^ i) (hlt : p + q < 2 ^ 53) :
    funits (fadd a b) = (p + q) * 2 ^ i := by
  rw [funits_fadd, ha, hb, ← Nat.add_mul, rneUnits_exact hlt (Nat.zero_le i), Nat.sub_zero]

theorem funits_fsub_exact (ha : funits a = p * 2 ^ i) (hb : funits b = q * 2 ^ i) (hlt : p - q < 2 ^ 53) :
    funits (fsub a b) = (p - q) * 2 ^ i := by
  rw [funits_fsub, ha, hb, ← Nat.sub_mul, rneUnits_exact hlt (Nat.zero_le i), Nat.sub_zero]

theorem mul_two_pow_split (n : Nat) {m : Nat} (h : i + k = m) : n * 2 ^ m = n * 2 ^ k * 2 ^ i := by
  rw [Nat.mul_assoc, ← Nat.pow_add, Nat.add_comm k, h]

/-- An integer at a smaller exponent. -/
theorem funits_fOfNat_eq (n : Nat) (hk : i + k = 1074) : funits (fOfNat n) = n * 2 ^ k * 2 ^ i := by
  rw [funits_fOfNat, mul_two_pow_split n hk]

/-- A value cut at the binary point: the integer part. -/
theorem ffloor_of_funits (ha : funits a = p * 2 ^ i) (hk : i + k = 1074) : ffloor a = p / 2 ^ k := by
  rw [ffloor_eq, ha, ← hk, Nat.add_comm, Nat.pow_add, Nat.mul_div_mul_right _ _ (Nat.two_pow_pos i)]

/-- A value cut at the binary point: the fraction is exact. -/
theorem funits_fsub_floor (ha : funits a = p * 2 ^ i) (hk : i + k = 1074) (hk53 : k ≤ 53) :
    funits (fsub a (fOfNat (ffloor a))) = p % 2 ^ k * 2 ^ i := by
  have hmod : p - p / 2 ^ k * 2 ^ k = p % 2 ^ k := by
    have := Nat.div_add_mod' p (2 ^ k)
    omega
  have hlt : p % 2 ^ k < 2 ^ 53 := (Nat.mod_lt p (Nat.two_pow_pos k)).trans_le (Nat.pow_le_pow_right Nat.two_pos hk53)
  rw [funits_fsub_exact ha ((funits_fOfNat_eq _ hk).trans (by rw [ffloor_of_funits ha hk])) (by rwa [hmod]), hmod]

theorem funits_fsub_floor_exact (ha : funits a = p * 2 ^ i) (hk : i + k = 1074) (hk53 : k ≤ 53) :
    funits (fsub a (fOfNat (ffloor a))) = funits a - ffloor a * 2 ^ 1074 := by
  rw [funits_fsub_floor ha hk hk53, ha, ffloor_of_funits ha hk, mul_two_pow_split _ hk, ← Nat.sub_mul, Nat.mod_eq_sub_div_mul]

end Exact

/-! ### The state words are the multiples of `2^-32` below 1 -/

/-- The value of a fraction `x * 2^-32` (10_state.md R33). -/
theorem funits_fraction (x : BitVec 32) : funits (fmul (fOfNat x.toNat) twoNeg32) = x.toNat * 2 ^ 1042 := by
  have hx := x.isLt
  have h := funits_fmul_exact (l := 1042) (funits_fOfNat x.toNat) funits_twoNeg32 rfl (by omega)
  rwa [Nat.mul_one] at h

theorem bits64_eq_fracWord {a : F64} {x : BitVec 32} (h : funits a = x.toNat * 2 ^ 1042) : bits64 a = fracWord x :=
  bits64_congr (h.trans (funits_fraction x).symm)

/-- A value of 53 significant bits and a moderate exponent is read back from its pattern. -/
theorem funits_valueOf_bits64_of_le {a : F64} {m j : Nat} (ha : funits a = m * 2 ^ j) (hm : m < 2 ^ 53) (hj : j ≤ 2045) :
    funits (valueOf (bits64 a)) = m * 2 ^ j := by
  rw [funits_valueOf_bits64 ha hm (mul_two_pow_lt hm (by omega)), ha]

theorem funits_valueOf_fracWord (x : BitVec 32) : funits (valueOf (fracWord x)) = x.toNat * 2 ^ 1042 :=
  funits_valueOf_bits64_of_le (funits_fraction x) (x.isLt.trans (by decide)) (by decide)

/-- Every fraction's pattern is below that of 1. -/
theorem fracWord_toNat_lt (x : BitVec 32) : (fracWord x).toNat < 1023 * 2 ^ 52 :=
  bits64_toNat_lt (n := 1074) (funits_fraction x) (x.isLt.trans (by decide)) rfl (by decide) (mul_two_pow_lt x.isLt le_rfl)

theorem intView_fracWord (x : BitVec 32) : intView (fracWord x) = x := by
  have hx := x.isLt
  have h := funits_fmul_exact (l := 1074) (funits_valueOf_fracWord x) (funits_fOfNat_two_pow (k := 32) rfl) rfl (by omega)
  rw [intView, ffloor_of_funits (k := 0) h rfl, Nat.mul_one, Nat.pow_zero, Nat.div_one, BitVec.ofNat_toNat,
    BitVec.setWidth_eq]

theorem fracWord_injective : Function.Injective fracWord := Function.LeftInverse.injective intView_fracWord

theorem wordOk_iff_eq_fracWord {w : BitVec 64} : wordOk w = true ↔ ∃ x, w = fracWord x := by
  rw [wordOk, beq_iff_eq]
  exact ⟨fun h => ⟨_, h⟩, fun ⟨x, hx⟩ => by rw [hx, intView_fracWord]⟩

/-- A pattern has the value of a fraction exactly when it is that fraction's word (10_state.md R22). -/
theorem isFraction_iff_eq_fracWord {w : BitVec 64} {x : BitVec 32} : isFraction w x ↔ w = fracWord x := by
  constructor
  · rintro ⟨hlt, hval⟩
    rw [← bits64_valueOf hlt, bits64_eq_fracWord hval]
  · rintro rfl
    exact ⟨(fracWord_toNat_lt x).trans (by decide), funits_valueOf_fracWord x⟩

theorem withWords_of_isFraction {s : State} {x0 x1 x2 : BitVec 32} (h0 : s.s0 = fracWord x0) (h1 : s.s1 = fracWord x1)
    (h2 : s.s2 = fracWord x2) : s = s.withWords ⟨x0, x1, x2, s.c⟩ := by
  simp only [State.withWords, ← h0, ← h1, ← h2]

/-- Settles O25: scaling by `2^32` undoes scaling by `2^-32`, and neither rounds. -/
theorem fractionsAreIntegers : Obligations.FractionsAreIntegers := by
  refine ⟨intView_fracWord, fun w => wordOk_iff_eq_fracWord, ?_⟩
  have hzero : funits (fmul (fOfNat (0#32).toNat) twoNeg32) = 0 := by
    rw [funits_fraction, BitVec.toNat_ofNat, Nat.zero_mod, Nat.zero_mul]
  rw [fracWord, bits64_eq, hzero]
  rfl

/-- Settles O26: the reading of R22 off the pattern and the one through the integers name the same words. -/
theorem wordsInRangeAreIntegers : Obligations.WordsInRangeAreIntegers := by
  simp only [Obligations.WordsInRangeAreIntegers, isFraction_iff_eq_fracWord]
  refine ⟨fun w => wordOk_iff_eq_fracWord, fun s x0 x1 x2 h0 h1 h2 => ⟨withWords_of_isFraction h0 h1 h2, ?_⟩⟩
  rw [h0, h1, h2]
  exact ⟨intView_fracWord x0, intView_fracWord x1, intView_fracWord x2⟩

end Sys2Proof.Machine
end

section
/-! PROOF. One Absorb round in floating point and on natural numbers (40_mash.md R92, R93, R96). -/

namespace Sys2Proof.Machine

/-! ### Rounding does not leave a representable bound -/

theorem rnd53_nearest {y : Nat} (p : Nat) (hy : isF64 y) : apart (rnd53 p) p ≤ apart y p := by
  obtain ⟨hle, -⟩ := rneUnits_nearest p 0 hy
  simpa only [rnd53_eq, Nat.pow_zero, Nat.mul_one] using hle

/-- What is at most a value of 53 significant bits rounds to at most that value. -/
theorem rnd53_le_of_le {p y : Nat} (hy : isF64 y) (h : p ≤ y) : rnd53 p ≤ y := by
  have := rnd53_nearest p hy
  unfold apart at this
  omega

/-! ### The values of a round, as numbers -/

/-- `p2` of AbsorbNat: n2 in units of `2^-37` (40_mash.md R96); `funits_roundH2` ties it to Absorb. -/
def roundP2 (n1 : Nat) : Nat := rnd53 (multKM * n1)

/-- `p5` of AbsorbNat, in units of `2^-37`; `funits_roundH5` ties it to Absorb. -/
def roundP5 (n1 : Nat) : Nat := rnd53 (roundP2 n1 % 2 ^ 37 * (roundP2 n1 / 2 ^ 37))

theorem absorbNat_eq (n : BitVec 32) (k : Code) : absorbNat n k =
    (let n1 := (n.toNat + k.toNat) % 2 ^ 32
     BitVec.ofNat 32 ((roundP5 n1 / 2 ^ 37 * 32 + roundP5 n1 % 2 ^ 37) / 32 % 2 ^ 32)) := rfl

/-- The constant 108216136 of 40_mash.md R93 (a). -/
theorem roundP2_div_le {n1 : Nat} (h : n1 < 2 ^ 32) : roundP2 n1 / 2 ^ 37 ≤ 108216136 := by
  have hy : isF64 (108216136 * 2 ^ 37 + (2 ^ 37 - 2 ^ 20)) :=
    ⟨108216136 * 2 ^ 17 + (2 ^ 17 - 1), 20, by decide, by decide⟩
  have hp : multKM * n1 ≤ 108216136 * 2 ^ 37 + (2 ^ 37 - 2 ^ 20) := by unfold multKM; omega
  have := rnd53_le_of_le hy hp
  unfold roundP2
  omega

/-- R93 (d): h5 is a fraction below 1 of n3. -/
theorem roundP5_le {n1 : Nat} (h : n1 < 2 ^ 32) : roundP5 n1 ≤ roundP2 n1 / 2 ^ 37 * 2 ^ 37 := by
  have hn3 := roundP2_div_le h
  refine rnd53_le_of_le ⟨_, 37, by omega, rfl⟩ ?_
  rw [Nat.mul_comm]
  exact Nat.mul_le_mul_left _ (Nat.mod_lt _ (Nat.two_pow_pos 37)).le

/-- R93 (j): below `2^37` units n3 is 0, and then all that follows is. -/
theorem roundP5_of_small {n1 : Nat} (h : n1 ≤ 39) : roundP5 n1 = 0 := by
  have hlt : multKM * n1 < 2 ^ 37 := by unfold multKM; omega
  have hp2 : roundP2 n1 / 2 ^ 37 = 0 := by
    rw [roundP2, rnd53_of_lt (hlt.trans (by decide)), Nat.div_eq_of_lt hlt]
  rw [roundP5, hp2, Nat.mul_zero]
  rfl

/-! ### The lines of Absorb (40_mash.md R92) -/

section Round

variable (n1 : Nat)

/-- h2 of Absorb (40_mash.md R92). `absorb_eq` ties these lines to Absorb. -/
def roundH2 : F64 := fmul multK (fOfNat n1)

/-- The fraction of h2. -/
def roundH4 : F64 := fsub (roundH2 n1) (fOfNat (ffloor (roundH2 n1)))

/-- The fraction of h2 times its integer part. -/
def roundH5 : F64 := fmul (roundH4 n1) (fOfNat (ffloor (roundH2 n1)))

/-- The fraction of h5. -/
def roundH7 : F64 := fsub (roundH5 n1) (fOfNat (ffloor (roundH5 n1)))

/-- The fraction of h5, scaled by `2^32`. -/
def roundG8 : F64 := fmul (roundH7 n1) (fOfNat (2 ^ 32))

/-- The sum whose truncation is the new N. -/
def roundS8 : F64 := fadd (fOfNat (ffloor (roundH5 n1))) (roundG8 n1)

theorem funits_roundH2 : funits (roundH2 n1) = roundP2 n1 * 2 ^ 1037 :=
  funits_fmul_eq funits_multK (funits_fOfNat n1) rfl

theorem ffloor_roundH2 : ffloor (roundH2 n1) = roundP2 n1 / 2 ^ 37 := ffloor_of_funits (funits_roundH2 n1) rfl

theorem funits_roundH4 : funits (roundH4 n1) = roundP2 n1 % 2 ^ 37 * 2 ^ 1037 :=
  funits_fsub_floor (funits_roundH2 n1) rfl (by decide)

theorem funits_roundH5 : funits (roundH5 n1) = roundP5 n1 * 2 ^ 1037 := by
  rw [roundH5, ffloor_roundH2]
  exact funits_fmul_eq (funits_roundH4 n1) (funits_fOfNat _) rfl

theorem ffloor_roundH5 : ffloor (roundH5 n1) = roundP5 n1 / 2 ^ 37 := ffloor_of_funits (funits_roundH5 n1) rfl

theorem funits_roundH7 : funits (roundH7 n1) = roundP5 n1 % 2 ^ 37 * 2 ^ 1037 :=
  funits_fsub_floor (funits_roundH5 n1) rfl (by decide)

theorem funits_roundG8 : funits (roundG8 n1) = roundP5 n1 % 2 ^ 37 * 2 ^ 1069 := by
  have h := funits_fmul_exact (l := 1069) (funits_roundH7 n1) (funits_fOfNat_two_pow (k := 32) rfl) rfl (by omega)
  rwa [Nat.mul_one] at h

variable {n1}

theorem roundP5_div_le (h : n1 < 2 ^ 32) : roundP5 n1 / 2 ^ 37 ≤ roundP2 n1 / 2 ^ 37 :=
  Nat.div_le_of_le_mul (by rw [Nat.mul_comm]; exact roundP5_le h)

theorem funits_roundS8 (h : n1 < 2 ^ 32) :
    funits (roundS8 n1) = (roundP5 n1 / 2 ^ 37 * 32 + roundP5 n1 % 2 ^ 37) * 2 ^ 1069 := by
  have h5 := roundP5_div_le h
  have h2 := roundP2_div_le h
  rw [roundS8, ffloor_roundH5]
  exact funits_fadd_exact (funits_fOfNat_eq _ (k := 5) rfl) (funits_roundG8 n1) (by omega)

theorem ffloor_roundS8 (h : n1 < 2 ^ 32) :
    ffloor (roundS8 n1) = (roundP5 n1 / 2 ^ 37 * 32 + roundP5 n1 % 2 ^ 37) / 32 :=
  ffloor_of_funits (k := 5) (funits_roundS8 h) rfl

/-- The truncation of n3 is idle (40_mash.md R93 (a), R97). -/
theorem u32_roundH2 (h : n1 < 2 ^ 32) : u32 (roundH2 n1) = ffloor (roundH2 n1) := by
  have h2 := roundP2_div_le h
  rw [u32, ffloor_roundH2]
  exact Nat.mod_eq_of_lt (by omega)

/-- The truncation of n6 is idle (40_mash.md R93 (d), R97). -/
theorem u32_roundH5 (h : n1 < 2 ^ 32) : u32 (roundH5 n1) = ffloor (roundH5 n1) := by
  have h5 := roundP5_div_le h
  have h2 := roundP2_div_le h
  rw [u32, ffloor_roundH5]
  exact Nat.mod_eq_of_lt (by omega)

end Round

/-- With the idle truncations taken out, Absorb is the truncation of s8. -/
theorem absorb_eq (n : BitVec 32) (k : Code) :
    absorb n k = BitVec.ofNat 32 (u32 (roundS8 ((n.toNat + k.toNat) % 2 ^ 32))) := by
  have h : (n.toNat + k.toNat) % 2 ^ 32 < 2 ^ 32 := Nat.mod_lt _ (Nat.two_pow_pos 32)
  unfold absorb
  generalize (n.toNat + k.toNat) % 2 ^ 32 = n1 at h
  have h2 := u32_roundH2 h
  have h5 := u32_roundH5 h
  simp only [roundS8, roundG8, roundH7, roundH5, roundH4, roundH2] at h2 h5 ⊢
  simp only [h2, h5]

/-- Settles O27: each line of Absorb is a line of AbsorbNat in units of `2^-37`, and only the two products round. -/
theorem mashRoundOnIntegers : Obligations.MashRoundOnIntegers := by
  intro n k
  have h : (n.toNat + k.toNat) % 2 ^ 32 < 2 ^ 32 := Nat.mod_lt _ (Nat.two_pow_pos 32)
  rw [absorb_eq, absorbNat_eq, u32, ffloor_roundS8 h]

/-! ### The facts of 40_mash.md R93 -/

section Facts

variable {n1 : Nat}

theorem funits_roundH5_le (h : n1 < 2 ^ 32) : funits (roundH5 n1) ≤ ffloor (roundH2 n1) * 2 ^ 1074 := by
  rw [funits_roundH5, ffloor_roundH2, mul_two_pow_split _ (show 1037 + 37 = 1074 from rfl)]
  exact Nat.mul_le_mul_right _ (roundP5_le h)

theorem funits_roundG8_eq : funits (roundG8 n1) = funits (roundH7 n1) * 2 ^ 32 := by
  rw [funits_roundG8, funits_roundH7, mul_two_pow_split _ (show 32 + 1037 = 1069 from rfl)]

theorem ffloor_roundG8_lt : ffloor (roundG8 n1) < 2 ^ 32 := by
  rw [ffloor_of_funits (k := 5) (funits_roundG8 n1) rfl]
  omega

theorem funits_roundS8_eq (h : n1 < 2 ^ 32) :
    funits (roundS8 n1) = ffloor (roundH5 n1) * 2 ^ 1074 + funits (roundG8 n1) := by
  rw [funits_roundS8 h, funits_roundG8, ffloor_roundH5, mul_two_pow_split _ (show 1069 + 5 = 1074 from rfl),
    show 2 ^ 5 = 32 from rfl, ← Nat.add_mul]

theorem ffloor_roundS8_lt (h : n1 < 2 ^ 32) : ffloor (roundS8 n1) < 2 ^ 32 + 2 ^ 27 := by
  have hn3 := roundP2_div_le h
  have hn6 := roundP5_div_le h
  rw [ffloor_roundS8 h]
  omega

theorem u32_roundS8_of_small (h : n1 ≤ 39) : u32 (roundS8 n1) = 0 := by
  rw [u32, ffloor_roundS8 (h.trans_lt (by decide)), roundP5_of_small h]
  rfl

end Facts

/-- Settles O28: the values of the round as numbers of units, and the two bounds that rounding keeps. -/
theorem mashRoundFacts : Obligations.MashRoundFacts := by
  intro n1 h
  have hn3 : ffloor (roundH2 n1) ≤ 108216136 := (ffloor_roundH2 n1).trans_le (roundP2_div_le h)
  have hn6 : ffloor (roundH5 n1) ≤ ffloor (roundH2 n1) := by
    rw [ffloor_roundH5, ffloor_roundH2]
    exact roundP5_div_le h
  have hfrac : ∀ p, p % 2 ^ 37 * 2 ^ 1037 < 2 ^ 1074 := fun p => mul_two_pow_lt (Nat.mod_lt p (Nat.two_pow_pos 37)) le_rfl
  have hh4 := funits_fsub_floor_exact (funits_roundH2 n1) rfl (k := 37) (by decide)
  have hh7 := funits_fsub_floor_exact (funits_roundH5 n1) rfl (k := 37) (by decide)
  exact ⟨⟨hn3, u32_roundH2 h⟩,
    ⟨Dvd.intro_left _ (funits_roundH2 n1).symm, Dvd.intro_left _ (funits_roundH4 n1).symm,
      Dvd.intro_left _ (funits_roundH5 n1).symm, Dvd.intro_left _ (funits_roundH7 n1).symm,
      Dvd.intro_left _ (funits_roundG8 n1).symm, Dvd.intro_left _ (funits_roundS8 h).symm⟩,
    ⟨hh4, (funits_roundH4 n1).trans_lt (hfrac _)⟩, ⟨funits_roundH5_le h, hn6, u32_roundH5 h⟩,
    ⟨hh7, (funits_roundH7 n1).trans_lt (hfrac _)⟩, ⟨funits_roundG8_eq, ffloor_roundG8_lt⟩,
    ⟨funits_roundS8_eq h, ffloor_roundS8_lt h⟩, u32_roundS8_of_small⟩

end Sys2Proof.Machine
end

section
/-! PROOF. Mash and Init in floating point and on integers (40_mash.md R94 to R98, 41_init.md R110, R115, R116). -/

namespace Sys2Proof.Machine

/-! ### One Mash call -/

theorem mash_snd (d : Text) (n : BitVec 32) : (mash d n).2 = mashNat d n :=
  List.foldl_ext _ _ n fun a k _ => mashRoundOnIntegers a k

theorem mash_fst (d : Text) (n : BitVec 32) : (mash d n).1 = fmul (fOfNat (mash d n).2.toNat) twoNeg32 := by
  simp only [mash, Nat.mod_eq_of_lt (BitVec.isLt _)]

theorem funits_mash (d : Text) (n : BitVec 32) : funits (mash d n).1 = (mashNat d n).toNat * 2 ^ 1042 := by
  rw [mash_fst, mash_snd, funits_fraction]

/-- Settles O29: the fraction is of the accumulator kept, whose rounds are those on natural numbers (R95, R96). -/
theorem mashReturnsItsAccumulator : Obligations.MashReturnsItsAccumulator :=
  fun d n => ⟨by rw [mash_fst, fracWord], mash_snd d n⟩

/-! ### One subtraction of Init -/

/-- Init's subtraction with wrap is subtraction modulo `2^32` of the integers (41_init.md R115, R116). -/
theorem funits_subtractWrap {a b : F64} {x m : BitVec 32} (ha : funits a = x.toNat * 2 ^ 1042)
    (hb : funits b = m.toNat * 2 ^ 1042) : funits (subtractWrap a b) = (x - m).toNat * 2 ^ 1042 := by
  have hx := x.isLt
  have hm := m.isLt
  have hlt : flt a b = true ↔ x.toNat < m.toNat := by
    rw [flt_iff, ha, hb]
    exact Nat.mul_lt_mul_right (pow_pos Nat.two_pos _)
  rw [subtractWrap, BitVec.toNat_sub]
  by_cases h : flt a b = true
  · have hneg := funits_fsub_exact hb ha (by omega)
    have hxm := hlt.mp h
    rw [if_pos h, funits_fsub_exact (funits_fOfNat_eq 1 (k := 32) rfl) hneg (by omega)]
    congr 1
    omega
  · have hmx := mt hlt.mpr h
    rw [if_neg h, funits_fsub_exact ha hb (by omega)]
    congr 1
    omega

/-! ### All of Init -/

/-- The words Init works on are those of InitInt's integers, and the accumulators are the same (41_init.md R116). -/
structure InitMatches (a : InitWork) (b : IntInit) : Prop where
  w0 : funits a.w0 = b.x0.toNat * 2 ^ 1042
  w1 : funits a.w1 = b.x1.toNat * 2 ^ 1042
  w2 : funits a.w2 = b.x2.toNat * 2 ^ 1042
  acc : a.n = b.n

theorem initBase_matches : InitMatches initBase initBaseNat := by
  constructor <;> simp only [initBase, initBaseNat, funits_mash, mash_snd]

theorem InitMatches.element {a : InitWork} {b : IntInit} (h : InitMatches a b) (e : Text) :
    InitMatches (initElement a e) (initElementNat b e) := by
  obtain ⟨h0, h1, h2, hn⟩ := h
  have hm : ∀ n, funits (mash e n).1 = (mashNat e n).toNat * 2 ^ 1042 := funits_mash e
  constructor <;> simp only [initElement, initElementNat, hn, mash_snd]
  · exact funits_subtractWrap h0 (hm _)
  · exact funits_subtractWrap h1 (hm _)
  · exact funits_subtractWrap h2 (hm _)

theorem InitMatches.foldl {a : InitWork} {b : IntInit} (h : InitMatches a b) (q : SeedSeq) :
    InitMatches (q.foldl initElement a) (q.foldl initElementNat b) := by
  induction q generalizing a b with
  | nil => exact h
  | cons e q ih => exact ih (h.element e)

theorem initWork_matches (q : SeedSeq) : InitMatches (initWork q) (initNat q) := initBase_matches.foldl q

/-- Settles O30: the empty text runs no round, so all three subtractions take the same N (R98). -/
theorem emptyElementSubtractsN : Obligations.EmptyElementSubtractsN := by
  intro x0 x1 x2 n a
  have ha : InitMatches a ⟨x0, x1, x2, n⟩ := ⟨funits_fraction x0, funits_fraction x1, funits_fraction x2, rfl⟩
  obtain ⟨h0, h1, h2, hn⟩ := ha.element []
  exact ⟨bits64_eq_fracWord h0, bits64_eq_fracWord h1, bits64_eq_fracWord h2, hn⟩

theorem init_eq (q : SeedSeq) (s : State) : init q s = { s.withWords (seedWords q) with n := (initNat q).n } := by
  obtain ⟨h0, h1, h2, hn⟩ := initWork_matches q
  rw [init, bits64_eq_fracWord h0, bits64_eq_fracWord h1, bits64_eq_fracWord h2, hn]
  rfl

/-- Settles O31: InitInt's integers are the words' at every element, by induction over the sequence. -/
theorem initOnIntegers : Obligations.InitOnIntegers := init_eq

end Sys2Proof.Machine
end

section
/-! PROOF. The seeding commands: their whole effect, and that what follows a SEED depends on the seed alone (41_init.md R111
to R118). -/

namespace Sys2Proof.Machine

/-! ### The whole effect of SEED, SEEDR and RESTART -/

theorem respond_setSeeded_init (q : SeedSeq) (s : State) :
    respond okFrame (setSeeded (init q (seedReplace q s))) = { s.withWords (seedWords q) with
      n := (initNat q).n, seedStore := q, seeded := true, rsp := s.rsp ++ [⟨0#32, []⟩] } := by
  rw [init_eq, okFrame_eq]
  rfl

theorem exec_seed_of_fits {q : SeedSeq} {s : State} (h : fitsStore s.params q = true) :
    exec (.seed q) s = .next (respond okFrame (setSeeded (init q (seedReplace q s)))) := execSeed_of_fits h

/-- Settles O34: within both capacities SEED stores, and Init is InitInt. -/
theorem seedResult : Obligations.SeedResult := by
  intro q s helems hcodes
  have hfits : fitsStore s.params q = true := by
    by_contra hno
    rcases fitsStore_eq_false_iff.mp (Bool.eq_false_iff.mpr hno) with h | ⟨m, hm, h⟩
    · exact absurd helems (not_le.mpr h)
    · exact absurd (hcodes m hm) (not_le.mpr h)
  rw [exec_seed_of_fits hfits, respond_setSeeded_init]

/-- The three words ENTROPY answers next: the listed ones and then the free ones (20_memory.md R54, assumption 5);
`entropySeed_eq` ties it to the model. -/
def nextWords (s : State) : List Word := s.ent ++ (List.range 3).map fun k => Config.entropyWord (s.entFree + k)

theorem entropySeed_eq (s : State) :
    entropySeed s =
      ([decText ((nextWords s).getD 0 0#32), decText ((nextWords s).getD 1 0#32), decText ((nextWords s).getD 2 0#32)],
        { s with ent := s.ent.drop 3, entFree := s.entFree + (3 - s.ent.length) }) := by
  rcases hent : s.ent with _ | ⟨w0, _ | ⟨w1, _ | ⟨w2, ws⟩⟩⟩ <;>
    simp [entropySeed, entropy, nextWords, List.range_succ, hent]

/-- Settles O35: three words off ENTROPY, whose texts fill the store; the rest is as SEED of them. -/
theorem seedrResult : Obligations.SeedrResult := by
  intro s
  have h : exec .seedr s = storeAndInit (entropySeed s).1 (entropySeed s).2 := rfl
  rw [entropySeed_eq, storeAndInit_eq, respond_setSeeded_init] at h
  exact h

/-- Settles O36: RESTART is Init of the stored sequence. -/
theorem restartResult : Obligations.RestartResult := by
  intro s hs
  rw [exec_restart_of_seeded hs, init_eq, okFrame_eq]
  rfl

/-- Settles O32: the rounds of the baseline on natural numbers, and the patterns of its three integers. -/
theorem baselineSeed : Obligations.BaselineSeed := by
  intro s
  have hfits : fitsStore s.params [] = true := by
    cases hm : s.params.seedMaxCodes <;> simp [fitsStore, totalCodes, hm]
  have hnat : initNat [] = ⟨3707969490#32, 645086813#32, 3941471299#32, 3941471299#32⟩ := by decide +kernel
  have h0 : fracWord 3707969490#32 = 0x3FEBA063FA400000#64 := by decide +kernel
  have h1 : fracWord 645086813#32 = 0x3FC3399F2E800000#64 := by decide +kernel
  have h2 : fracWord 3941471299#32 = 0x3FED5DC288600000#64 := by decide +kernel
  rw [exec_seed_of_fits hfits, respond_setSeeded_init, seedWords, hnat, State.withWords, h0, h1, h2]

/-! ### Commands one after another -/

theorem execAll_cons {i : Instr} {is : List Instr} {s t : State} (h : exec i s = .next t) :
    execAll (i :: is) s = execAll is t := by
  rw [execAll, h]

theorem execAll_append {is js : List Instr} {s t : State} (h : execAll is s = .next t) :
    execAll (is ++ js) s = execAll js t := by
  induction is generalizing s with
  | nil => rw [List.nil_append, Host.Outcome.next.inj h]
  | cons i is ih =>
    obtain ⟨u, hu⟩ := exec_next i s
    rw [execAll_cons hu] at h
    rw [List.cons_append, execAll_cons hu, ih h]

/-! ### Two blocks in the same generator state (41_init.md R118) -/

section SameBlock

variable {s t : State}

theorem sameBlock.respond (h : sameBlock s t) (f g : Frame) : sameBlock (respond f s) (respond g t) := h

theorem sameBlock.draw (h : sameBlock s t) : sameBlock (draw s) (draw t) := by
  obtain ⟨h0, h1, h2, hc, hn, hstore, hseeded⟩ := h
  exact ⟨h1, h2, by rw [draw_s2, draw_s2, h0, hc], by rw [draw_c, draw_c, h0, hc], hn, hstore, hseeded⟩

theorem sameBlock.drawTimes (h : sameBlock s t) (k : Nat) : sameBlock (drawTimes k s) (drawTimes k t) := by
  induction k generalizing s t with
  | zero => exact h
  | succ k ih => exact ih h.draw

theorem sameBlock.init (h : sameBlock s t) (q : SeedSeq) : sameBlock (init q s) (init q t) := by
  obtain ⟨-, -, -, -, -, hstore, hseeded⟩ := h
  simp [sameBlock, hstore, hseeded]

/-- After the same SEED two blocks are in the same state, whatever they held. -/
theorem sameBlock_after_seed (q : SeedSeq) (s t : State) :
    sameBlock (setSeeded (Machine.init q (seedReplace q s))) (setSeeded (Machine.init q (seedReplace q t))) := by
  simp [sameBlock]

/-- A command that neither seeds nor reads entropy answers alike in the same generator state. -/
theorem sameBlock.exec (h : sameBlock s t) (hs : s.seeded = true) {i : Instr} (hi : needsSeeded i = true) :
    ∃ r s' t', exec i s = .next (Machine.respond r s') ∧ exec i t = .next (Machine.respond r t') ∧ s'.rsp = s.rsp ∧
      t'.rsp = t.rsp ∧ sameBlock s' t' := by
  obtain ⟨-, -, -, -, -, hstore, hseeded⟩ := id h
  have ht : t.seeded = true := hseeded.trans hs
  obtain ⟨-, -, hd1, -⟩ := h.draw
  obtain ⟨-, -, hd2, -⟩ := h.draw.draw
  cases i with
  | seed q => cases hi
  | seedr => cases hi
  | restart =>
    have ht' := exec_restart_of_seeded ht
    rw [hstore] at ht'
    exact ⟨_, _, _, exec_restart_of_seeded hs, ht', init_rsp _ _, init_rsp _ _, h.init _⟩
  | random =>
    have ht' := exec_random_of_seeded ht
    rw [hd1] at ht'
    exact ⟨_, _, _, exec_random_of_seeded hs, ht', rfl, rfl, h.draw⟩
  | fract53 =>
    have ht' := exec_fract53_of_seeded ht
    rw [hd1, hd2] at ht'
    exact ⟨_, _, _, exec_fract53_of_seeded hs, ht', rfl, rfl, h.draw.draw⟩
  | int32 =>
    have ht' := exec_int32_of_seeded ht
    rw [hd1] at ht'
    exact ⟨_, _, _, exec_int32_of_seeded hs, ht', rfl, rfl, h.draw⟩
  | cycle n =>
    have hrsp : ∀ u : State, (Machine.drawTimes (drawCount n) u).rsp = u.rsp := fun u => by
      obtain ⟨-, -, -, -, -, hrsp, -⟩ := drawTimes_keeps (drawCount n) u
      exact hrsp
    exact ⟨_, _, _, exec_cycle_of_seeded hs n, exec_cycle_of_seeded ht n, hrsp s, hrsp t, h.drawTimes _⟩
  | cycled => exact ⟨_, _, _, exec_cycled_of_seeded hs, exec_cycled_of_seeded ht, rfl, rfl, h.draw⟩

theorem sameBlock.execAll (h : sameBlock s t) (hs : s.seeded = true) {cmds : List Instr}
    (hcmds : ∀ i ∈ cmds, needsSeeded i = true) :
    ∃ s' t' rs, execAll cmds s = .next s' ∧ execAll cmds t = .next t' ∧ s'.rsp = s.rsp ++ rs ∧ t'.rsp = t.rsp ++ rs ∧
      sameBlock s' t' := by
  induction cmds generalizing s t with
  | nil => exact ⟨s, t, [], rfl, rfl, (List.append_nil _).symm, (List.append_nil _).symm, h⟩
  | cons i is ih =>
    obtain ⟨hi, his⟩ := List.forall_mem_cons.mp hcmds
    obtain ⟨r, s₁, t₁, hs₁, ht₁, hrs₁, hrt₁, h₁⟩ := h.exec hs hi
    obtain ⟨s', t', rs, hs', ht', hrs, hrt, h'⟩ := ih (h₁.respond r r) (exec_keeps_seeded hs hs₁) his
    rw [execAll_cons hs₁, execAll_cons ht₁]
    exact ⟨s', t', r :: rs, hs', ht', by rw [hrs, respond_rsp, hrs₁, List.append_assoc, List.singleton_append],
      by rw [hrt, respond_rsp, hrt₁, List.append_assoc, List.singleton_append], h'⟩

end SameBlock

/-- Settles O37: SEED makes the two blocks' generator states the same, and every later command keeps them so. -/
theorem sameSeedSameStream : Obligations.SameSeedSameStream := by
  intro q s t cmds hfs hft hcmds
  have h := (sameBlock_after_seed q s t).respond okFrame okFrame
  obtain ⟨s', t', rs, hs', ht', hrs, hrt, h'⟩ := h.execAll rfl hcmds
  refine ⟨s', t', okFrame :: rs, (execAll_cons (exec_seed_of_fits hfs)).trans hs',
    (execAll_cons (exec_seed_of_fits hft)).trans ht', ?_, ?_, h'⟩
  · rw [hrs]; simp
  · rw [hrt]; simp

/-! ### RESTART after any draws (41_init.md R113) -/

/-- The state t as s, but for what drawing and RESTART write: S, C, N and RSP. -/
def sameButGenerator (s t : State) : Prop :=
  t = { s with s0 := t.s0, s1 := t.s1, s2 := t.s2, c := t.c, n := t.n, rsp := t.rsp }

theorem Keeps.sameButGenerator {i : Instr} {s t : State} (h : Keeps i s t) (hi : needsSeeded i = true) :
    sameButGenerator s t := by
  obtain ⟨hparams, hinputs, hresets, hent, hstore, -⟩ := h
  obtain ⟨hseeded, hseq⟩ := hstore hi
  obtain ⟨hent, hfree⟩ := hent (by rintro rfl; cases hi)
  unfold Machine.sameButGenerator
  rw [← hparams, ← hinputs, ← hresets, ← hseeded, ← hseq, ← hent, ← hfree]

theorem sameButGenerator.trans {s t u : State} (h : sameButGenerator s t) (h' : sameButGenerator t u) :
    sameButGenerator s u := by
  unfold sameButGenerator at *
  rw [h', h]

theorem execAll_keeps {s : State} {cmds : List Instr} (hcmds : ∀ i ∈ cmds, needsSeeded i = true) :
    ∃ t, execAll cmds s = .next t ∧ sameButGenerator s t := by
  induction cmds generalizing s with
  | nil => exact ⟨s, rfl, rfl⟩
  | cons i is ih =>
    obtain ⟨hi, his⟩ := List.forall_mem_cons.mp hcmds
    obtain ⟨s₁, h₁⟩ := exec_next i s
    obtain ⟨t, ht, hkeep⟩ := ih (s := s₁) his
    exact ⟨t, (execAll_cons h₁).trans ht, ((exec_keeps h₁).sameButGenerator hi).trans hkeep⟩

/-- Init writes all that drawing and RESTART do, so it undoes them. -/
theorem sameButGenerator.respond_init {s t : State} (h : sameButGenerator s t) (q : SeedSeq) (f : Frame) :
    respond f (init q t) = { init q s with rsp := t.rsp ++ [f] } := by
  rw [h]
  rfl

/-- Settles O38: the commands in between write only what Init writes again from the same stored sequence. -/
theorem restartReplaysTheSeed : Obligations.RestartReplaysTheSeed := by
  intro q s cmds hfits hcmds
  have hseed := exec_seed_of_fits hfits
  obtain ⟨v, hv, hkeep⟩ := execAll_keeps (s := respond okFrame (setSeeded (init q (seedReplace q s)))) hcmds
  have hseeded : v.seeded = true := by rw [hkeep]; rfl
  have hstore : v.seedStore = q := by rw [hkeep]; rfl
  have hrestart := exec_restart_of_seeded hseeded
  rw [hstore, hkeep.respond_init] at hrestart
  refine ⟨{ respond okFrame (setSeeded (init q (seedReplace q s))) with rsp := v.rsp ++ [okFrame] }, _, ?_,
    execAll_cons hseed, rfl⟩
  rw [execAll_cons hseed, execAll_append hv, execAll_cons hrestart]
  rfl

end Sys2Proof.Machine
end

section
/-! PROOF. Draw in floating point and on integers, and the whole effect of the drawing commands (42_draw.md R130 to R135,
43_derived.md R140 to R147). -/

namespace Sys2Proof.Machine

/-! ### One draw -/

/-- `T = A * X[0] + C` has 53 bits (42_draw.md R132). -/
theorem IntWords.sum_lt (x : IntWords) : x.sum < 2 ^ 53 := by
  have hx := x.x0.isLt
  have hc := x.c.isLt
  unfold IntWords.sum drawMult
  omega

theorem IntWords.draw_x2_toNat (x : IntWords) : x.draw.x2.toNat = x.sum % 2 ^ 32 := Nat.mod_mod _ _

theorem IntWords.draw_c_toNat (x : IntWords) : x.draw.c.toNat = x.sum / 2 ^ 32 := by
  have hsum := x.sum_lt
  exact Nat.mod_eq_of_lt (by omega)

/-- t is exact: it is T in units of `2^-32` (42_draw.md R130, R132). -/
theorem funits_drawSum (x : IntWords) : funits (drawSum (fracWord x.x0) x.c) = x.sum * 2 ^ 1042 := by
  have hsum := x.sum_lt
  have hc := x.c.isLt
  unfold IntWords.sum at hsum ⊢
  have hprod := funits_fmul_exact (l := 1042) (funits_fOfNat drawMult) (funits_valueOf_fracWord x.x0) rfl (by omega)
  have hcarry := funits_fmul_exact (l := 1042) (funits_fOfNat x.c.toNat) funits_twoNeg32 rfl (by omega)
  rw [Nat.mul_one] at hcarry
  exact funits_fadd_exact hprod hcarry hsum

theorem drawSplit_fracWord (x : IntWords) : drawSplit (fracWord x.x0) x.c = (x.draw.c, fracWord x.draw.x2) := by
  have hsum := x.sum_lt
  have ht := funits_drawSum x
  have hfloor := ffloor_of_funits ht (k := 32) rfl
  have hfrac := funits_fsub_floor ht (k := 32) rfl (by decide)
  rw [← x.draw_x2_toNat] at hfrac
  unfold drawSplit
  simp only [hfloor, carryOf, if_pos (show x.sum / 2 ^ 32 < 2 ^ 21 by omega)]
  rw [hfloor] at hfrac
  rw [bits64_eq_fracWord hfrac]
  rfl

theorem draw_withWords (s : State) (x : IntWords) : draw (s.withWords x) = s.withWords x.draw := by
  have h := drawSplit_fracWord x
  simp only [draw, withWords_s0, withWords_c, h]
  rfl

theorem drawTimes_withWords (k : Nat) (s : State) (x : IntWords) :
    drawTimes k (s.withWords x) = s.withWords (x.drawTimes k) := by
  induction k generalizing x with
  | zero => rfl
  | succ k ih => rw [drawTimes_succ, draw_withWords, ih, IntWords.drawTimes]

/-- Settles O39: neither product, the sum nor the subtraction of Draw rounds on these words. -/
theorem drawOnIntegers : Obligations.DrawOnIntegers := draw_withWords

/-- Settles O40: the integer form, evaluated, and the patterns of the words it gives. -/
theorem workedTraceOfDraws : Obligations.WorkedTraceOfDraws := by
  constructor <;> decide +kernel

/-! ### What the drawing commands answer -/

/-- FRACT53's sum is W in units of `2^-53` (43_derived.md R141). -/
theorem fract53Nat_toNat (xa xb : BitVec 32) : (fract53Nat xa xb).toNat = xa.toNat * 2 ^ 21 + xb.toNat / 2 ^ 11 := by
  have hb := xb.isLt
  rw [fract53Nat, Laws.toNat_append_eq, BitVec.extractLsb'_toNat, Nat.shiftRight_eq_div_pow]
  omega

theorem funits_fract53 (w : BitVec 53) : funits (fmul (fOfNat w.toNat) twoNeg53) = w.toNat * 2 ^ 1021 := by
  have hw := w.isLt
  have h := funits_fmul_exact (l := 1021) (funits_fOfNat w.toNat) funits_twoNeg53 rfl (by omega)
  rwa [Nat.mul_one] at h

/-- m of FRACT53 is the upper 21 bits of the second draw (43_derived.md R140, R141). -/
theorem ffloor_fract53_low (x : BitVec 32) :
    ffloor (fmul (valueOf (fracWord x)) (fOfNat (2 ^ 21))) = x.toNat / 2 ^ 11 := by
  have hx := x.isLt
  have h := funits_fmul_exact (l := 1063) (funits_valueOf_fracWord x) (funits_fOfNat_two_pow (k := 21) rfl) rfl (by omega)
  rw [ffloor_of_funits (k := 11) h rfl, Nat.mul_one]

theorem fractOf_fracWord (xa xb : BitVec 32) : fractOf (fracWord xa) (fracWord xb) = fract53Word (fract53Nat xa xb) := by
  have ha := xa.isLt
  have hb := xb.isLt
  have hlow := funits_fmul_exact (l := 1021) (funits_fOfNat (xb.toNat / 2 ^ 11)) funits_twoNeg53 rfl (by omega)
  rw [Nat.mul_one] at hlow
  have hhigh : funits (valueOf (fracWord xa)) = xa.toNat * 2 ^ 21 * 2 ^ 1021 :=
    (funits_valueOf_fracWord xa).trans (mul_two_pow_split _ rfl)
  have hsum := funits_fadd_exact hhigh hlow (by omega)
  unfold fractOf
  simp only [ffloor_fract53_low]
  exact bits64_congr (hsum.trans (by rw [funits_fract53, fract53Nat_toNat]))

theorem int32Of_fracWord (x : BitVec 32) : int32Of (fracWord x) = int32Word x := by
  have hx := x.isLt
  have h := funits_fmul_exact (l := 1074) (funits_valueOf_fracWord x) (funits_fOfNat_two_pow (k := 32) rfl) rfl (by omega)
  rw [Nat.mul_one] at h
  exact bits64_congr (h.trans (funits_fOfNat _).symm)

section Seeded

variable {s : State} (x : IntWords)

theorem exec_random_withWords (hs : s.seeded = true) :
    exec .random (s.withWords x) = .next (respond (valueFrame (fracWord x.draw.x2)) (s.withWords x.draw)) := by
  rw [exec_random_of_seeded (by exact hs), draw_withWords, withWords_s2]

theorem exec_fract53_withWords (hs : s.seeded = true) :
    exec .fract53 (s.withWords x) =
      .next (respond (valueFrame (fract53Word (fract53Nat x.draw.x2 x.draw.draw.x2))) (s.withWords x.draw.draw)) := by
  rw [exec_fract53_of_seeded (by exact hs), draw_withWords, draw_withWords, withWords_s2, withWords_s2, fractOf_fracWord]

theorem exec_int32_withWords (hs : s.seeded = true) :
    exec .int32 (s.withWords x) = .next (respond (valueFrame (int32Word x.draw.x2)) (s.withWords x.draw)) := by
  rw [exec_int32_of_seeded (by exact hs), draw_withWords, withWords_s2, int32Of_fracWord]

end Seeded

/-- Settles O41: the draw on integers, and the word of its new X[2]. -/
theorem randomResult : Obligations.RandomResult := by
  intro s x hs
  rw [exec_random_withWords x hs, valueFrame_eq]
  rfl

/-- Settles O42: two draws on integers, and W from them, the first high. -/
theorem fract53Result : Obligations.Fract53Result := by
  intro s x hs
  rw [exec_fract53_withWords x hs, valueFrame_eq]
  rfl

/-- Settles O43: the draw on integers, and its new X[2] as an integer. -/
theorem int32Result : Obligations.Int32Result := by
  intro s x hs
  rw [exec_int32_withWords x hs, valueFrame_eq]
  rfl

/-- Settles O44: the draws on integers, as many as the count says. -/
theorem cycleResult : Obligations.CycleResult := by
  intro s x hs
  constructor
  · intro n
    rw [exec_cycle_of_seeded (by exact hs), drawTimes_withWords, okFrame_eq]
    rfl
  · rw [exec_cycled_of_seeded (by exact hs), draw_withWords, okFrame_eq]
    rfl

/-! ### Ranges of the answers (43_derived.md R147) -/

theorem resultOf_valueFrame (res : BitVec 64) : resultOf (valueFrame res) = some res := by
  have hres := res.isLt
  refine congrArg some (BitVec.eq_of_toNat_eq ?_)
  rw [Laws.toNat_append_eq, BitVec.extractLsb'_toNat, BitVec.extractLsb'_toNat, Nat.shiftRight_eq_div_pow,
    Nat.shiftRight_zero]
  omega

theorem answeredValue_respond (res : BitVec 64) (s : State) :
    answeredValue (.next (respond (valueFrame res) s)) = some res := by
  rw [answeredValue, respond_rsp, List.getLast?_concat, Option.bind_some, resultOf_valueFrame]

/-- The low bits of a pattern that a short significand does not reach are 0. -/
theorem two_pow_dvd_bits64 {a : F64} {m j k e : Nat} (ha : funits a = m * 2 ^ j) (hm : m < 2 ^ k) (hk : k + e ≤ 53)
    (hpos : 0 < k) (he : e ≤ j) : 2 ^ e ∣ (bits64 a).toNat := by
  rw [bits64_eq, ha, BitVec.toNat_ofNat]
  refine (Nat.dvd_mod_iff (Nat.pow_dvd_pow 2 (by omega))).mpr (Nat.dvd_add ?_ ?_)
  · exact Dvd.dvd.mul_left (Nat.pow_dvd_pow 2 (by omega)) _
  · rcases Nat.eq_zero_or_pos m with rfl | hm0
    · simp
    · have hb := bitLen_le.mpr hm
      rw [bitLen_mul_two_pow hm0.ne']
      obtain ⟨d, hd⟩ : ∃ d, j = (bitLen m + j - 53) + (e + d) := ⟨j - (bitLen m + j - 53) - e, by omega⟩
      generalize bitLen m + j - 53 = t at hd ⊢
      rw [hd, mul_two_pow_split m rfl, Nat.mul_div_cancel _ (Nat.two_pow_pos t), Nat.pow_add]
      exact Dvd.dvd.mul_left (Nat.dvd_mul_right _ _) _

theorem funits_valueOf_fract53Word (w : BitVec 53) : funits (valueOf (fract53Word w)) = w.toNat * 2 ^ 1021 :=
  funits_valueOf_bits64_of_le (funits_fract53 w) w.isLt (by decide)

theorem fract53Word_toNat_lt (w : BitVec 53) : (fract53Word w).toNat < 1023 * 2 ^ 52 :=
  bits64_toNat_lt (n := 1074) (funits_fract53 w) w.isLt rfl (by decide) (mul_two_pow_lt w.isLt le_rfl)

theorem funits_valueOf_int32Word (x : BitVec 32) : funits (valueOf (int32Word x)) = x.toNat * 2 ^ 1074 :=
  funits_valueOf_bits64_of_le (funits_fOfNat _) (x.isLt.trans (by decide)) (by decide)

theorem int32Word_toNat_lt (x : BitVec 32) : (int32Word x).toNat < 1055 * 2 ^ 52 :=
  bits64_toNat_lt (n := 1106) (funits_fOfNat _) (x.isLt.trans (by decide)) rfl (by decide) (mul_two_pow_lt x.isLt le_rfl)

/-- The fraction of RANDOM has 32 bits, so 21 bits of its pattern are 0 (43_derived.md R147). -/
theorem fracWord_mod (x : BitVec 32) : (fracWord x).toNat % 2 ^ 21 = 0 :=
  Nat.mod_eq_zero_of_dvd (two_pow_dvd_bits64 (funits_fraction x) x.isLt le_rfl (by decide) (by decide))

/-- Settles O49: each answer is the pattern of a number of few bits, so its value and its range are that number's. -/
theorem returnedValuesAreInRange : Obligations.ReturnedValuesAreInRange := by
  intro s x hs
  have hlow := x.draw.draw.x2.isLt
  refine ⟨_, _, _, x.draw.x2.toNat, (fract53Nat x.draw.x2 x.draw.draw.x2).toNat, ?_, ?_, ?_, x.draw.x2.isLt,
    BitVec.isLt _, ?_, ⟨fracWord_toNat_lt _, fracWord_mod _, funits_valueOf_fracWord _⟩,
    ⟨fract53Word_toNat_lt _, funits_valueOf_fract53Word _⟩, ⟨int32Word_toNat_lt _, funits_valueOf_int32Word _⟩⟩
  · rw [exec_random_withWords x hs, answeredValue_respond]
  · rw [exec_fract53_withWords x hs, answeredValue_respond]
  · rw [exec_int32_withWords x hs, answeredValue_respond]
  · rw [fract53Nat_toNat]
    omega

end Sys2Proof.Machine
end

section
/-! PROOF. DrawInt as a map of the states with C < A: a bijection, its fixed points, and what four draws tell (42_draw.md
R134, 70_reset_and_hazards.md R202). -/

namespace Sys2Proof.Machine

theorem carryOk_iff {c : BitVec 21} : carryOk c = true ↔ c.toNat < 2091639 := decide_eq_true_iff

namespace IntWords

variable {x y : IntWords}

/-! ### T and the two parts it is cut into -/

theorem draw_x0 (x : IntWords) : x.draw.x0 = x.x1 := rfl

theorem draw_x1 (x : IntWords) : x.draw.x1 = x.x2 := rfl

/-- C and X[2] after a draw are T's two halves. -/
theorem sum_eq (x : IntWords) : x.sum = x.draw.c.toNat * 2 ^ 32 + x.draw.x2.toNat := by
  rw [draw_c_toNat, draw_x2_toNat, Nat.div_add_mod']

theorem sum_def (x : IntWords) : x.sum = 2091639 * x.x0.toNat + x.c.toNat := rfl

theorem eq_of_fields (h0 : x.x0 = y.x0) (h1 : x.x1 = y.x1) (h2 : x.x2 = y.x2) (hc : x.c = y.c) : x = y := by
  cases x
  cases y
  exact (IntWords.mk.injEq ..).mpr ⟨h0, h1, h2, hc⟩

/-! ### The bijection -/

/-- C stays below A (42_draw.md R133). -/
theorem carryOk_draw (h : carryOk x.c = true) : carryOk x.draw.c = true := by
  have hx := x.x0.isLt
  rw [carryOk_iff] at *
  rw [draw_c_toNat, sum_def]
  omega

/-- T is a number in base A with the last digit C, so it tells X[0] and C. -/
theorem eq_of_sum_eq (hx : carryOk x.c = true) (hy : carryOk y.c = true) (h : x.sum = y.sum) : x.x0 = y.x0 ∧ x.c = y.c := by
  rw [carryOk_iff] at hx hy
  rw [sum_def, sum_def] at h
  exact ⟨BitVec.eq_of_toNat_eq (by omega), BitVec.eq_of_toNat_eq (by omega)⟩

theorem draw_injective (hx : carryOk x.c = true) (hy : carryOk y.c = true) (h : x.draw = y.draw) : x = y := by
  have hsum : x.sum = y.sum := by rw [sum_eq, sum_eq, h]
  obtain ⟨h0, hc⟩ := eq_of_sum_eq hx hy hsum
  exact eq_of_fields h0 (congrArg IntWords.x0 h) (congrArg IntWords.x1 h) hc

/-- The state before a draw: X[0] and C are the digits of `C * 2^32 + X[2]` in base A. -/
def undraw (y : IntWords) : IntWords :=
  let t := y.c.toNat * 2 ^ 32 + y.x2.toNat
  ⟨BitVec.ofNat 32 (t / drawMult), y.x0, y.x1, BitVec.ofNat 21 (t % drawMult)⟩

theorem undraw_c_toNat (y : IntWords) : y.undraw.c.toNat = (y.c.toNat * 2 ^ 32 + y.x2.toNat) % 2091639 := by
  simp only [undraw, BitVec.toNat_ofNat, drawMult]
  omega

theorem carryOk_undraw (y : IntWords) : carryOk y.undraw.c = true := by
  rw [carryOk_iff, undraw_c_toNat]
  exact Nat.mod_lt _ (by decide)

theorem undraw_x0_toNat (h : carryOk y.c = true) :
    y.undraw.x0.toNat = (y.c.toNat * 2 ^ 32 + y.x2.toNat) / 2091639 := by
  have h2 := y.x2.isLt
  rw [carryOk_iff] at h
  simp only [undraw, BitVec.toNat_ofNat, drawMult]
  omega

theorem sum_undraw (h : carryOk y.c = true) : y.undraw.sum = y.c.toNat * 2 ^ 32 + y.x2.toNat := by
  rw [sum_def, undraw_x0_toNat h, undraw_c_toNat, Nat.div_add_mod]

theorem draw_undraw (h : carryOk y.c = true) : y.undraw.draw = y := by
  have h2 := y.x2.isLt
  refine eq_of_fields (draw_x0 y.undraw) (draw_x1 y.undraw) (BitVec.eq_of_toNat_eq ?_) (BitVec.eq_of_toNat_eq ?_)
  · rw [draw_x2_toNat, sum_undraw h]
    omega
  · rw [draw_c_toNat, sum_undraw h]
    omega

/-! ### Any number of draws -/

theorem drawTimes_succ' (k : Nat) (x : IntWords) : drawTimes (k + 1) x = (drawTimes k x).draw := by
  induction k generalizing x with
  | zero => rfl
  | succ k ih => rw [drawTimes, ih, drawTimes]

theorem drawTimes_injective {k : Nat} (hx : carryOk x.c = true) (hy : carryOk y.c = true)
    (h : drawTimes k x = drawTimes k y) : x = y := by
  induction k generalizing x y with
  | zero => exact h
  | succ k ih => exact draw_injective hx hy (ih (carryOk_draw hx) (carryOk_draw hy) h)

/-! ### The fixed points -/

/-- `(A - 1) * X = (2^32 - 1) * C` has two solutions in range, since A - 1 and `2^32 - 1` are coprime. -/
theorem fixed_digits {a c : Nat} (ha : a < 2 ^ 32) (hc : c < 2091639) (h : 2091639 * a + c = c * 2 ^ 32 + a) :
    (a = 0 ∧ c = 0) ∨ (a = 0xFFFFFFFF ∧ c = 2091638) := by
  have hdvd : 2091638 ∣ 4294967295 * c := ⟨a, by omega⟩
  obtain ⟨k, rfl⟩ := Nat.Coprime.dvd_of_dvd_mul_left (by norm_num) hdvd
  omega

theorem draw_eq_self_iff (h : carryOk x.c = true) :
    x.draw = x ↔ x = ⟨0#32, 0#32, 0#32, 0#21⟩ ∨
      x = ⟨0xFFFFFFFF#32, 0xFFFFFFFF#32, 0xFFFFFFFF#32, 2091638#21⟩ := by
  constructor
  · intro hfix
    have h0 : x.x1 = x.x0 := congrArg IntWords.x0 hfix
    have h1 : x.x2 = x.x1 := congrArg IntWords.x1 hfix
    have hsum := x.sum_eq
    rw [hfix, sum_def, h1, h0] at hsum
    have hx0 := x.x0.isLt
    rw [carryOk_iff] at h
    rcases fixed_digits hx0 h hsum with ⟨hz, hc⟩ | ⟨hz, hc⟩
    · have hx : x.x0 = 0#32 := BitVec.eq_of_toNat_eq hz
      exact .inl (eq_of_fields hx (h0.trans hx) (h1.trans (h0.trans hx)) (BitVec.eq_of_toNat_eq hc))
    · have hx : x.x0 = 0xFFFFFFFF#32 := BitVec.eq_of_toNat_eq hz
      exact .inr (eq_of_fields hx (h0.trans hx) (h1.trans (h0.trans hx)) (BitVec.eq_of_toNat_eq hc))
  · rintro (rfl | rfl) <;> rfl

end IntWords

theorem carryOk_seedWords (q : SeedSeq) : carryOk (seedWords q).c = true := by
  rw [carryOk_iff]
  exact (by decide : (1#21).toNat < 2091639)

/-- InitInt leaves C = 1, which no fixed point has (41_init.md R116, 42_draw.md R134). -/
theorem seedWords_draw_ne (q : SeedSeq) : (seedWords q).draw ≠ seedWords q := by
  intro hfix
  have hc : (seedWords q).c = 1#21 := rfl
  rcases (IntWords.draw_eq_self_iff (carryOk_seedWords q)).mp hfix with h | h <;>
    exact absurd (hc.symm.trans (congrArg IntWords.c h)) (by decide)

/-- A fixed point after k draws would have been one before them. -/
theorem drawTimes_seedWords_draw_ne (q : SeedSeq) (k : Nat) :
    (IntWords.drawTimes k (seedWords q)).draw ≠ IntWords.drawTimes k (seedWords q) := by
  intro hfix
  rw [← IntWords.drawTimes_succ', IntWords.drawTimes] at hfix
  have hc := carryOk_seedWords q
  exact seedWords_draw_ne q (IntWords.drawTimes_injective (IntWords.carryOk_draw hc) hc hfix)

/-- Settles O50: the digits of T in base A give the one state before a draw. -/
theorem drawIsABijection : Obligations.DrawIsABijection :=
  ⟨fun _ h => IntWords.carryOk_draw h, fun y h => ⟨y.undraw, ⟨IntWords.carryOk_undraw y, IntWords.draw_undraw h⟩,
    fun _ ⟨hx, hdraw⟩ => IntWords.draw_injective hx (IntWords.carryOk_undraw y) (hdraw.trans (IntWords.draw_undraw h).symm)⟩⟩

/-- The fourth draw tells the carry of a state whose words are known (70_reset_and_hazards.md R202). -/
theorem IntWords.carry_eq_of_draw_x2_eq {x y : IntWords} (h0 : x.x0 = y.x0) (h : x.draw.x2 = y.draw.x2) : x.c = y.c := by
  have hx := x.c.isLt
  have hy := y.c.isLt
  have hmod := congrArg BitVec.toNat h
  rw [draw_x2_toNat, draw_x2_toNat, sum_def, sum_def, h0] at hmod
  exact BitVec.eq_of_toNat_eq (by omega)

/-- Settles O52: three draws give the three words, the fourth the carry, and draws can be undone. -/
theorem fourDrawsRevealTheState : Obligations.FourDrawsRevealTheState := by
  intro x y hx hy h
  have h0 : x.draw.x2 = y.draw.x2 := h 0 (by decide)
  have h1 : x.draw.draw.x2 = y.draw.draw.x2 := h 1 (by decide)
  have h2 : x.draw.draw.draw.x2 = y.draw.draw.draw.x2 := h 2 (by decide)
  have h3 : x.draw.draw.draw.draw.x2 = y.draw.draw.draw.draw.x2 := h 3 (by decide)
  have hthree : IntWords.drawTimes 3 x = IntWords.drawTimes 3 y :=
    IntWords.eq_of_fields h0 h1 h2 (IntWords.carry_eq_of_draw_x2_eq h0 h3)
  exact IntWords.drawTimes_injective hx hy hthree

end Sys2Proof.Machine
end

section
/-! PROOF. What every step keeps: the words of a seeded block are those of a seed and some draws, and its store is within its
capacity (10_state.md R22, R23, 60_exceptions.md R164). -/

namespace Sys2Proof.Machine

/-! ### The words and the carry of a block -/

/-- The words and the carry of s are the integers of x (10_state.md R33). -/
structure HasWords (s : State) (x : IntWords) : Prop where
  s0 : s.s0 = fracWord x.x0
  s1 : s.s1 = fracWord x.x1
  s2 : s.s2 = fracWord x.x2
  c : s.c = x.c

section HasWords

variable {s : State} {x : IntWords}

theorem HasWords.eq_withWords (h : HasWords s x) : s = s.withWords x := by
  obtain ⟨h0, h1, h2, hc⟩ := h
  simp only [State.withWords, ← h0, ← h1, ← h2, ← hc]

theorem hasWords_withWords (s : State) (x : IntWords) : HasWords (s.withWords x) x := ⟨rfl, rfl, rfl, rfl⟩

theorem HasWords.respond (h : HasWords s x) (f : Frame) : HasWords (respond f s) x := ⟨h.s0, h.s1, h.s2, h.c⟩

theorem HasWords.drawTimes (h : HasWords s x) (k : Nat) : HasWords (drawTimes k s) (x.drawTimes k) := by
  rw [h.eq_withWords, drawTimes_withWords]
  exact hasWords_withWords _ _

theorem hasWords_init (q : SeedSeq) (s : State) : HasWords (init q s) (seedWords q) := by
  rw [init_eq]
  exact ⟨rfl, rfl, rfl, rfl⟩

theorem HasWords.setSeeded (h : HasWords s x) : HasWords (setSeeded s) x := ⟨h.s0, h.s1, h.s2, h.c⟩

end HasWords

/-- Once SEEDED = 1 the words and the carry of s are integers that meet P. -/
def SeededWords (P : IntWords → Prop) (s : State) : Prop := s.seeded = true → ∃ x, HasWords s x ∧ P x

/-- What holds of the words after a seed and outlives a draw is kept by every command. -/
theorem SeededWords.exec {P : IntWords → Prop} (hseed : ∀ q, P (seedWords q)) (hdraw : ∀ x, P x → P x.draw) {i : Instr}
    {s t : State} (h : SeededWords P s) (he : exec i s = .next t) : SeededWords P t := by
  have hdraws : ∀ k x, P x → P (x.drawTimes k) := by
    intro k
    induction k with
    | zero => exact fun _ hx => hx
    | succ k ih => exact fun x hx => ih _ (hdraw x hx)
  have hfault : ∀ f, SeededWords P (respond f s) := fun f hs =>
    let ⟨x, hx, hp⟩ := h hs
    ⟨x, hx.respond f, hp⟩
  have hdrawn : ∀ k f, s.seeded = true → SeededWords P (respond f (drawTimes k s)) := fun k f hs _ =>
    let ⟨x, hx, hp⟩ := h hs
    ⟨_, (hx.drawTimes k).respond f, hdraws k x hp⟩
  rcases exec_cases i s with ⟨-, -, he'⟩ | ⟨q, -, -, he'⟩ | ⟨q, -, -, he'⟩ | ⟨-, he'⟩ | ⟨-, -, he'⟩ | ⟨k, -, -, hs, he'⟩ |
    ⟨k, res, -, -, hs, he'⟩ <;> obtain rfl := Host.Outcome.next.inj (he'.symm.trans he)
  · exact hfault _
  · exact hfault _
  · exact fun _ => ⟨_, (hasWords_init q _).setSeeded.respond _, hseed q⟩
  · exact fun _ => ⟨_, (hasWords_init _ _).setSeeded.respond _, hseed _⟩
  · exact fun _ => ⟨_, (hasWords_init _ _).respond _, hseed _⟩
  · exact hdrawn k _ hs
  · exact hdrawn k _ hs

/-- What every command keeps and taking an input or a response does not touch, every step keeps; RESET must bring it about. -/
theorem step_keeps {Q : State → Prop} (hinputs : ∀ s rest, Q s → Q { s with inputs := rest })
    (hrespond : ∀ s f, Q s → Q (respond f s)) (hreset : ∀ s, Q s → Q (takeReset s))
    (hexec : ∀ i s t, Q s → exec i s = .next t → Q t) {s t : State} (hs : Q s) (h : step s = .next t) : Q t := by
  rcases hin : s.inputs with _ | ⟨f | _, rest⟩
  · obtain rfl := Host.Outcome.next.inj ((step_of_idle hin).symm.trans h)
    exact hs
  · cases hd : decode f with
    | error e =>
      obtain rfl := Host.Outcome.next.inj ((step_of_decode_error hin hd).symm.trans h)
      exact hrespond _ _ (hinputs _ _ hs)
    | ok i => exact hexec i _ _ (hinputs _ _ hs) ((step_of_decode_ok hin hd).symm.trans h)
  · obtain rfl := Host.Outcome.next.inj ((step_of_reset hin).symm.trans h)
    exact hreset _ (hinputs _ _ hs)

theorem SeededWords.step {P : IntWords → Prop} (hseed : ∀ q, P (seedWords q)) (hdraw : ∀ x, P x → P x.draw)
    {s t : State} (h : SeededWords P s) (hstep : step s = .next t) : SeededWords P t :=
  step_keeps (fun _ _ hs hseeded => let ⟨x, hx, hp⟩ := hs hseeded; ⟨x, ⟨hx.s0, hx.s1, hx.s2, hx.c⟩, hp⟩)
    (fun _ f hs hseeded => let ⟨x, hx, hp⟩ := hs hseeded; ⟨x, hx.respond f, hp⟩) (fun _ _ => nofun)
    (fun _ _ _ hs he => hs.exec hseed hdraw he) h hstep

/-! ### The seed store -/

/-- The parameters are legal and a seeded block's store is within its capacity (00_scope.md R7, 60_exceptions.md R164). -/
structure StoreFits (s : State) : Prop where
  legal : s.params.legal = true
  fits : s.seeded = true → Memory.wf s = true

theorem needsSeeded_of_isDrawing {i : Instr} (h : isDrawing i = true) : needsSeeded i = true := by
  cases i with
  | seed q | seedr | restart => cases h
  | random | fract53 | int32 | cycle n | cycled => rfl

/-- Only a sequence that was checked is stored, and the three texts of SEEDR fit every legal store. -/
theorem StoreFits.exec {i : Instr} {s t : State} (h : StoreFits s) (he : exec i s = .next t) : StoreFits t := by
  have hparams := (exec_keeps he).params
  refine ⟨hparams ▸ h.legal, fun hseeded => ?_⟩
  cases hi : needsSeeded i with
  | true =>
    obtain ⟨hsd, hstore⟩ := (exec_keeps he).store hi
    rw [Memory.wf, hparams, hstore]
    exact h.fits (hsd ▸ hseeded)
  | false =>
    rcases exec_cases i s with ⟨hn, -⟩ | ⟨q, -, -, he'⟩ | ⟨q, -, hfits, he'⟩ | ⟨-, he'⟩ | ⟨rfl, -⟩ | ⟨k, hd, -⟩ | ⟨k, res, hd, -⟩
    · exact absurd (hi.symm.trans hn) Bool.false_ne_true
    · obtain rfl := Host.Outcome.next.inj (he'.symm.trans he)
      exact h.fits hseeded
    · obtain rfl := Host.Outcome.next.inj (he'.symm.trans he)
      simpa [Memory.wf] using hfits
    · obtain rfl := Host.Outcome.next.inj (he'.symm.trans he)
      obtain ⟨hp, -⟩ := entropySeed_keeps s
      simpa [Memory.wf, hp] using entropySeed_fits h.legal s
    · cases hi
    · exact absurd (hi.symm.trans (needsSeeded_of_isDrawing hd)) Bool.false_ne_true
    · exact absurd (hi.symm.trans (needsSeeded_of_isDrawing hd)) Bool.false_ne_true

theorem StoreFits.step {s t : State} (h : StoreFits s) (hstep : step s = .next t) : StoreFits t :=
  step_keeps (fun _ _ hs => ⟨hs.legal, hs.fits⟩) (fun _ _ hs => ⟨hs.legal, hs.fits⟩) (fun _ hs => ⟨hs.legal, nofun⟩)
    (fun _ _ _ hs he => hs.exec he) h hstep

/-! ### The invariant (10_state.md R22, R23) -/

theorem wordsOk_iff {s : State} : s.wordsOk = true ↔ ∃ x, HasWords s x ∧ carryOk x.c = true := by
  simp only [State.wordsOk, Bool.and_eq_true, wordOk_iff_eq_fracWord]
  constructor
  · rintro ⟨⟨⟨⟨x0, h0⟩, x1, h1⟩, x2, h2⟩, hc⟩
    exact ⟨⟨x0, x1, x2, s.c⟩, ⟨h0, h1, h2, rfl⟩, hc⟩
  · rintro ⟨x, ⟨h0, h1, h2, hc⟩, hok⟩
    exact ⟨⟨⟨⟨_, h0⟩, _, h1⟩, _, h2⟩, hc ▸ hok⟩

theorem inv_iff {s : State} : s.inv = true ↔ StoreFits s ∧ SeededWords (fun x => carryOk x.c = true) s := by
  unfold State.inv SeededWords
  rw [← wordsOk_iff]
  cases hs : s.seeded with
  | false =>
    have hno : ¬ s.seeded = true := by rw [hs]; exact Bool.false_ne_true
    have hstore : StoreFits s ↔ s.params.legal = true := ⟨fun h => h.legal, fun h => ⟨h, fun hsd => absurd hsd hno⟩⟩
    simp [hstore]
  | true =>
    have hstore : StoreFits s ↔ s.params.legal = true ∧ Memory.wf s = true :=
      ⟨fun h => ⟨h.legal, h.fits hs⟩, fun ⟨hl, hm⟩ => ⟨hl, fun _ => hm⟩⟩
    simp only [hstore, Bool.not_true, Bool.false_or, Bool.and_eq_true, forall_const, and_assoc, and_comm]

/-- Settles O14: a seed leaves C = 1, a draw keeps C below A, and the words stay fractions through both. -/
theorem everyStepKeepsTheInvariant : Obligations.EveryStepKeepsTheInvariant := by
  intro s t hinv hstep
  obtain ⟨hstore, hwords⟩ := inv_iff.mp hinv
  exact inv_iff.mpr ⟨hstore.step hstep,
    hwords.step (P := fun x => carryOk x.c = true) carryOk_seedWords (fun _ h => IntWords.carryOk_draw h) hstep⟩

/-! ### Runs of the machine -/

/-- What every step keeps, every run keeps. -/
theorem run_keeps {Q : State → Prop} (hstep : ∀ s t, Q s → step s = .next t → Q t) {k : Nat} {s t : State} (hs : Q s)
    (h : Sys2Proof.core.run k s = .next t) : Q t := by
  induction k generalizing s with
  | zero => exact Host.Outcome.next.inj h ▸ hs
  | succ k ih =>
    obtain ⟨u, hu⟩ := step_next s
    rw [run_succ_of_step (M := Sys2Proof.core) hu] at h
    exact ih (hstep s u hs hu) h

/-- The words of a seed and some draws (42_draw.md R134). -/
def DrawnFromSeed (x : IntWords) : Prop := ∃ q k, x = IntWords.drawTimes k (seedWords q)

theorem DrawnFromSeed.draw {x : IntWords} (h : DrawnFromSeed x) : DrawnFromSeed x.draw := by
  obtain ⟨q, k, rfl⟩ := h
  exact ⟨q, k + 1, (IntWords.drawTimes_succ' k _).symm⟩

theorem DrawnFromSeed.draw_ne {x : IntWords} (h : DrawnFromSeed x) : x.draw ≠ x := by
  obtain ⟨q, k, rfl⟩ := h
  exact drawTimes_seedWords_draw_ne q k

/-- RANDOM changes the words or the carry unless their integers are a fixed point of DrawInt. -/
theorem exec_random_changes {s : State} {x : IntWords} (h : HasWords s x) (hs : s.seeded = true) (hne : x.draw ≠ x) :
    ∃ u, exec .random s = .next u ∧ (u.s0, u.s1, u.s2, u.c) ≠ (s.s0, s.s1, s.s2, s.c) := by
  obtain ⟨h0, h1, h2, hc⟩ := (h.drawTimes 1).respond (valueFrame (draw s).s2)
  refine ⟨_, exec_random_of_seeded hs, fun heq => hne ?_⟩
  simp only [Prod.mk.injEq] at heq
  obtain ⟨e0, e1, e2, ec⟩ := heq
  exact IntWords.eq_of_fields (fracWord_injective (h0.symm.trans (e0.trans h.s0)))
    (fracWord_injective (h1.symm.trans (e1.trans h.s1))) (fracWord_injective (h2.symm.trans (e2.trans h.s2)))
    (hc.symm.trans (ec.trans h.c))

/-- Settles O51: C = 1 after InitInt is no fixed point's, draws are one to one, and a seeded block of a run has drawn from a
seed. -/
theorem fixedPointsAreNeverReached : Obligations.FixedPointsAreNeverReached := by
  refine ⟨fun x h => IntWords.draw_eq_self_iff h, drawTimes_seedWords_draw_ne, fun k s t hs hrun ht => ?_⟩
  have hstart : SeededWords DrawnFromSeed s := fun h => absurd (hs.symm.trans h) Bool.false_ne_true
  have hend : SeededWords DrawnFromSeed t :=
    run_keeps (fun _ _ h hstep => h.step (fun q => ⟨q, 0, rfl⟩) (fun _ hx => hx.draw) hstep) hstart hrun
  obtain ⟨x, hx, hdrawn⟩ := hend ht
  exact exec_random_changes hx ht hdrawn.draw_ne

end Sys2Proof.Machine
end
